-- ==== Sys2Proof/Word.lean ====
section
/-! DEFINITION. The word types of FCRE (00_scope.md R10, R12, R13): every value is an unsigned bit vector of a fixed width. -/

namespace Sys2Proof

/-- A byte of a buffer or message (R14). -/
abbrev Byte := BitVec 8

/-- A 64-bit value: a block, a key, an IV, or the data of a register access (R10, R75). -/
abbrev Block := BitVec 64

/-- A 48-bit round key (R10). -/
abbrev RoundKey := BitVec 48

/-- A 28-bit key half-register C or D (R10, R46). -/
abbrev KeyHalf := BitVec 28

/-- A 32-bit block half-register L or R (R10, R47). -/
abbrev Half := BitVec 32

/-- A 32-bit command word or length register (R31, R40, R100). -/
abbrev Word := BitVec 32

end Sys2Proof
end

