-- ==== Sys2Proof/Syntax.lean ====
section
/-! DEFINITION. The commands of FCRE: one constructor per row of spec/opcode_table.json (30_encoding.md R103). -/

namespace Sys2Proof

/-- The five commands. A command word carries no immediate and no register specifier; its one operand is REV (R102). -/
inductive Instr where
  /-- NOP: no operation (43_host_interface.md R310). -/
  | nop
  /-- DERIVE: derive the round-key schedule into RK; `rev` is CW.REV (41_cipher_engine.md R202). -/
  | derive (rev : Bool)
  /-- XFORM: transform BLK_IN with the schedule in RK (41_cipher_engine.md R203). -/
  | xform
  /-- CTS_ENC: CBC-CTS encrypt (42_cbc_cts.md R251). -/
  | ctsEnc
  /-- CTS_DEC: CBC-CTS decrypt (42_cbc_cts.md R262). -/
  | ctsDec
  deriving DecidableEq, Repr

end Sys2Proof
end

