-- ==== Sys2Proof/Config.lean ====
section
/-! DEFINITION. The parameters of an FCRE instance (00_scope.md R11) and the one free value the spec leaves open. -/

namespace Sys2Proof

/-- The table set of 40_tables.md R140.
The number of entries of each table is carried by its type, so the counts of R158 hold by construction. -/
structure Tables where
  /-- The initial permutation IP (R142). -/
  ip     : Vector Nat 64
  /-- The final permutation FP (R143). -/
  fp     : Vector Nat 64
  /-- The expansion E (R144). -/
  e      : Vector Nat 48
  /-- The straight permutation P (R145). -/
  p      : Vector Nat 32
  /-- The first permuted choice PC1 (R146). -/
  pc1    : Vector Nat 56
  /-- The second permuted choice PC2 (R147). -/
  pc2    : Vector Nat 48
  /-- The rotation amounts SHIFTS, for rounds 1 to 16 (R148). -/
  shifts : Vector Nat 16
  /-- The substitution tables S1 to S8, each 4 rows of 16 columns (R149). -/
  sboxes : Vector (Vector (Vector Nat 16) 4) 8
  deriving DecidableEq, Repr

/-- A buffer capacity: the constraint `8 <= MAX_LEN <= 2^32 - 1` of R11 is part of the type. -/
abbrev Capacity := { n : Nat // 8 ≤ n ∧ n ≤ 4294967295 }

/-- The named parameters of R11.
They are fixed for an instance (10_state.md R52).
DESIGN CHOICE (log entry 1), safe: State carries them as a field that no step changes, so a statement about every state is
a statement about every instance. -/
structure Params where
  /-- `MAX_LEN`, the capacity in bytes of each of IN and OUT. -/
  maxLen  : Capacity
  /-- `TABLES`, the table set. -/
  tables  : Tables
  /-- `IV_RESET`, the reset value of the IV register. -/
  ivReset : Block
  deriving DecidableEq, Repr

/-- The free values: the n-th draw of a value the spec leaves open (43_host_interface.md R309; 93 I11, I12).
It has no body, so nothing can be proved about what it is.
Log entries 3 and 6. -/
opaque Config.freeValue : Nat → BitVec 64

end Sys2Proof
end

