-- ==== Sys2Proof/WellFormed.lean ====
section
/-! DEFINITION. Well-formedness: of a command, and of a table set (40_tables.md R158). -/

namespace Sys2Proof

/-- Every command is well formed: the only operand a command word carries is the 1-bit REV of DERIVE, taken as is (R102). -/
def Instr.wf : Instr → Bool
  | .nop => true
  | .derive _ => true
  | .xform => true
  | .ctsEnc => true
  | .ctsDec => true

/-- Every entry of `l` is a table position in `1..n` (R12). -/
def positionsIn (n : Nat) (l : List Nat) : Bool := l.all fun p => decide (1 ≤ p) && decide (p ≤ n)

/-- The entries of `l` are distinct positions in `1..n`; where `l` has n entries, it is a permutation of `1..n`. -/
def distinctIn (n : Nat) (l : List Nat) : Bool := positionsIn n l && decide l.Nodup

/-- FP inverts IP (R143): output position j of FP comes from position FP[j], and IP[FP[j]] = j. -/
def invertsIp (t : Tables) : Bool :=
  (List.range 64).all fun j => t.ip.toList.getD (t.fp.toList.getD j 0 - 1) 0 == j + 1

/-- R158 (1): IP and FP are permutations of 1..64, and FP inverts IP. -/
def Tables.blockPermsOk (t : Tables) : Bool :=
  distinctIn 64 t.ip.toList && distinctIn 64 t.fp.toList && invertsIp t

/-- R158 (2): P is a permutation of 1..32. -/
def Tables.straightOk (t : Tables) : Bool := distinctIn 32 t.p.toList

/-- R158 (3): E has 48 entries in 1..32. -/
def Tables.expansionOk (t : Tables) : Bool := positionsIn 32 t.e.toList

/-- R158 (4): PC1 has 56 distinct entries in 1..64. -/
def Tables.choice1Ok (t : Tables) : Bool := distinctIn 64 t.pc1.toList

/-- R158 (5): PC2 has 48 distinct entries in 1..56. -/
def Tables.choice2Ok (t : Tables) : Bool := distinctIn 56 t.pc2.toList

/-- R158 (6): SHIFTS has 16 entries, each 1 or 2. -/
def Tables.shiftsOk (t : Tables) : Bool := t.shifts.toList.all fun r => r == 1 || r == 2

/-- R158 (7): each Sk has 4 rows of 16 entries in 0..15. -/
def Tables.sboxesOk (t : Tables) : Bool :=
  t.sboxes.toList.all fun sk => sk.toList.all fun row => row.toList.all fun v => decide (v < 16)

/-- The conditions of R158 that a table set must meet before use. -/
def Tables.wf (t : Tables) : Bool :=
  t.blockPermsOk && t.straightOk && t.expansionOk && t.choice1Ok && t.choice2Ok && t.shiftsOk && t.sboxesOk

end Sys2Proof
end

