-- ==== Sys2Proof/Decode.lean ====
section
/-! DEFINITION. The decoder of command words, total on every 32-bit word (30_encoding.md R105), and the encoder. -/

namespace Sys2Proof

/-- Why a word is illegal: the three kinds of R106. Each ends the command with ILLEGAL_CMD. -/
inductive DecodeReject where
  /-- A bit of RSV_HI (31:9) or RSV_LO (7:4) is set. -/
  | reservedBits
  /-- OP is in 0x5 to 0xF. -/
  | reservedOp
  /-- REV = 1 with OP other than 0x1. -/
  | revNotAllowed
  deriving DecidableEq, Repr

/-- The field OP, bits 3:0 (R101). -/
def cwOp (w : Word) : BitVec 4 := w.extractLsb' 0 4

/-- The field RSV_LO, bits 7:4 (R101). -/
def cwRsvLo (w : Word) : BitVec 4 := w.extractLsb' 4 4

/-- The field REV, bit 8 (R101). -/
def cwRev (w : Word) : Bool := w.getLsbD 8

/-- The field RSV_HI, bits 31:9 (R101). -/
def cwRsvHi (w : Word) : BitVec 23 := w.extractLsb' 9 23

/-- The command that OP and REV select, once the reserved bits are 0 (R103, R105). -/
def decodeOp (op : Nat) (rev : Bool) : Except DecodeReject Instr :=
  match op, rev with
  | 0, false => .ok .nop
  | 1, r => .ok (.derive r)
  | 2, false => .ok .xform
  | 3, false => .ok .ctsEnc
  | 4, false => .ok .ctsDec
  | 0, true => .error .revNotAllowed
  | 2, true => .error .revNotAllowed
  | 3, true => .error .revNotAllowed
  | 4, true => .error .revNotAllowed
  | _, _ => .error .reservedOp

/-- The decode function of R105. Where the spec answers `none`, this one names the reason. -/
def decode (w : Word) : Except DecodeReject Instr :=
  if cwRsvHi w ≠ 0 ∨ cwRsvLo w ≠ 0 then .error .reservedBits else decodeOp (cwOp w).toNat (cwRev w)

/-- The instruction the decoder reads from the low `nbits` bits of `w`; FCRE's one format has 32 bits (R100), and the bus
drops whatever stands above them (43_host_interface.md R303). -/
def decodeTableWord (nbits w : Nat) : Option Instr :=
  (decode (BitVec.ofNat 32 (w % 2 ^ nbits))).toOption

/-- A command word of the fields OP and REV, every reserved bit 0 (R101). -/
def cw (op : BitVec 4) (rev : Bool) : Word := 0#23 ++ BitVec.ofBool rev ++ 0#4 ++ op

/-- The encoder: the OP value of R103 and the REV bit of each command. -/
def encode : Instr → Word
  | .nop => cw 0x0#4 false
  | .derive rev => cw 0x1#4 rev
  | .xform => cw 0x2#4 false
  | .ctsEnc => cw 0x3#4 false
  | .ctsDec => cw 0x4#4 false

end Sys2Proof
end

