-- ==== Sys2Proof/Machine/State.lean ====
section
/-! DEFINITION. The state of FCRE as plain data (10_state.md), the reasons a run stops (60_exceptions.md R351), and reset
(70_reset_and_hazards.md R380 to R384). -/

namespace Sys2Proof.Machine

/-- The model faults of R351, recorded when a run loses its meaning. None is a hardware error code.
Every one is safe: the model stops where the hardware would go on in a way the spec does not give. -/
inductive Fault where
  /-- A RegWrite or InWrite while BUSY = 1 (43_host_interface.md R305). Raised by the host accesses. Safe. -/
  | hostWriteWhileBusy
  /-- CTS_ENC or CTS_DEC reads an unwritten byte of `IN[0..LEN)` (20_memory.md R91). Raised by these two commands. Safe. -/
  | unwrittenInput
  /-- InRead or OutRead of an unwritten byte (43_host_interface.md R307, R308). Raised by the host accesses. Safe. -/
  | unwrittenRead
  /-- A table set that fails 40_tables.md R158. Recorded in the reset state of such an instance, so that it is refused before
  any step; raised by `step`. Safe. -/
  | badTables
  deriving DecidableEq, Repr

/-- The refusals. -/
inductive Refusal where
  /-- The instruction has no meaning yet. Only a refused arm of `exec` raises it; no arm is refused now. Safe. -/
  | notModelled (mnemonic : String)
  deriving DecidableEq, Repr

/-- The error codes of STATUS.ERR (60_exceptions.md R341 to R344). -/
inductive ErrCode where
  /-- ERR = 0, OK (R341). -/
  | ok
  /-- ERR = 1, ILLEGAL_CMD (R342). -/
  | illegalCmd
  /-- ERR = 2, LEN_RANGE (R343). -/
  | lenRange
  /-- ERR = 3, DEC_LENGTH (R344). -/
  | decLength
  deriving DecidableEq, Repr

/-- The length-dependent case of a mode command (42_cbc_cts.md R244, R255; the sequencer holds it, R49). -/
inductive ModeCase where
  /-- Nothing to encrypt (R245). -/
  | empty
  /-- Whole blocks (R246, R256). -/
  | full
  /-- The short input or output (R247, R257). -/
  | short
  /-- The general case, with ciphertext stealing (R248 to R250, R258 to R261). -/
  | general
  deriving DecidableEq, Repr

/-- The hidden registers (10_state.md R46 to R49): unspecified and unobservable between commands.
DESIGN CHOICE (log entry 3), safe: R53 lets a model omit them; this one holds them, with a free value after every command.
The sequencer's running command is `State.running` (log entry 4). -/
structure Hidden where
  /-- Key half-register C (R46). -/
  c     : KeyHalf
  /-- Key half-register D (R46). -/
  d     : KeyHalf
  /-- Block half-register L (R47). -/
  l     : Half
  /-- Block half-register R (R47). -/
  r     : Half
  /-- The chaining register PREV (R48). -/
  prev  : Block
  /-- The sequencer's round counter, 0..15 (R49). -/
  round : BitVec 4
  /-- The sequencer's key-schedule step counter, 1..16 (R49). -/
  step  : BitVec 5
  /-- The mode controller's byte position (R49). -/
  pos   : Word
  /-- The mode controller's case (R49). -/
  mode  : ModeCase
  deriving DecidableEq, Repr

/-- A host access (43_host_interface.md R314; the bus transactions RR, RW, BW, BR, OR of 30_encoding.md R111).
A buffer index is any natural number (log entry 12). -/
inductive HostAction where
  /-- RegRead(n) (R301). -/
  | regRead (n : BitVec 8)
  /-- RegWrite(n, v) (R302, R303). -/
  | regWrite (n : BitVec 8) (v : Block)
  /-- InWrite(a, b) (R306). -/
  | inWrite (a : Nat) (b : Byte)
  /-- InRead(a) (R307). -/
  | inRead (a : Nat)
  /-- OutRead(a) (R308). -/
  | outRead (a : Nat)
  deriving DecidableEq, Repr

/-- One move of the agenda: whose turn it is next (R300), or an assertion of the reset input (R380). -/
inductive Event where
  /-- The host performs an access. -/
  | host (a : HostAction)
  /-- The engine takes its step, if it is enabled (R304). -/
  | engine
  /-- The reset input is asserted (R380). -/
  | reset
  deriving DecidableEq, Repr

/-- The registers of the register map (10_state.md R55). -/
inductive Reg where
  | cmd
  | status
  | key
  | iv
  | blkIn
  | blkOut
  | len
  | plen
  | outLen
  | rk (i : Fin 16)
  | reserved
  deriving DecidableEq, Repr

/-- A buffer: the written bytes by index, indices strictly rising. An unlisted index is unwritten and has no value
(10_state.md R44, R45; log entry 9). -/
abbrev Memory := List Host.Cell

/-- The state of FCRE (10_state.md R53), with the hidden registers, the parameters and the model's own fields. -/
structure State where
  /-- MODEL: the parameters of the instance; no step changes them (R52; log entry 1). -/
  params  : Params
  /-- CMD, register 0x00 (R31). -/
  cmd     : Word
  /-- STATUS.BUSY, register 0x01 bit 0 (R32). -/
  busy    : Bool
  /-- STATUS.DONE, register 0x01 bit 1 (R33). -/
  done    : Bool
  /-- STATUS.ERR, register 0x01 bits 7:4 (R34). -/
  err     : BitVec 4
  /-- KEY, register 0x02 (R36). -/
  key     : Block
  /-- IV, register 0x03 (R37). -/
  iv      : Block
  /-- BLK_IN, register 0x04 (R38). -/
  blkIn   : Block
  /-- BLK_OUT, register 0x05 (R39). -/
  blkOut  : Block
  /-- LEN, register 0x06 (R40). -/
  len     : Word
  /-- PLEN, register 0x07 (R41). -/
  plen    : Word
  /-- OUT_LEN, register 0x08 (R42). -/
  outLen  : Word
  /-- RK[0..15], registers 0x10 + i (R43). -/
  rk      : Vector RoundKey 16
  /-- The input buffer IN (R44). -/
  inBuf   : Memory
  /-- The output buffer OUT (R45). -/
  outBuf  : Memory
  /-- The hidden registers (R46 to R49). -/
  hidden  : Hidden
  /-- The recorded model fault, if any; never cleared (R53, R351; log entry 8). -/
  faulted : Option Fault
  /-- MODEL: the value the last host access returned, zero-extended to the bus; none after a write (log entry 7). -/
  reply   : Option Block
  /-- MODEL: how many free values have been drawn (log entry 6). -/
  draws   : Nat
  /-- MODEL: the moves to come, oldest first (log entry 5). -/
  agenda  : List Event
  deriving DecidableEq, Repr

/-- The outcome of a meaning or a step. -/
abbrev Result := Host.Outcome State Fault Refusal

/-- The command the sequencer is running (R49): the word latched in CMD, while BUSY = 1 (R304; log entry 4). -/
def State.running (s : State) : Option Word := if s.busy then some s.cmd else none

/-- The value of the hidden registers in the reset state.
DESIGN CHOICE (log entry 3), unsafe: the spec leaves them unspecified (R383); no statement rests on it. -/
def Hidden.atReset : Hidden :=
  { c := 0, d := 0, l := 0, r := 0, prev := 0, round := 0, step := 0, pos := 0, mode := .empty }

/-- What the configuration check records (60_exceptions.md R351, 93_implementation_defined.md I14): BadTables for a table set
that fails 40_tables.md R158, nothing for a good one. -/
def configFault (p : Params) : Option Fault := if p.tables.wf then none else some .badTables

/-- The reset state of an instance (70_reset_and_hazards.md R381 to R383): every register 0 but IV, every buffer byte
unwritten, the sequencer idle. A bad table set is recorded here, before any step (log entry 8). The agenda is empty (log
entry 5). -/
def State.resetFor (p : Params) : State where
  params := p
  cmd := 0x00000000#32
  busy := false
  done := false
  err := 0#4
  key := 0#64
  iv := p.ivReset
  blkIn := 0#64
  blkOut := 0#64
  len := 0#32
  plen := 0#32
  outLen := 0#32
  rk := Vector.replicate 16 0#48
  inBuf := []
  outBuf := []
  hidden := Hidden.atReset
  faulted := configFault p
  reply := none
  draws := 0
  agenda := []

/-- The machine right after reset, for the default parameters (R11, R381). -/
def State.reset : State := State.resetFor defaultParams

end Sys2Proof.Machine
end

