-- ==== Sys2Proof/Machine/Flags.lean ====
section
/-! DEFINITION. STATUS, FCRE's only flag register (10_state.md R32 to R35): its word, and its change at command issue. -/

namespace Sys2Proof.Machine

/-- The number of an error code (60_exceptions.md R341 to R344). -/
def ErrCode.bits : ErrCode → BitVec 4
  | .ok => 0
  | .illegalCmd => 1
  | .lenRange => 2
  | .decLength => 3

/-- STATUS as a word: BUSY bit 0, DONE bit 1, bits 3:2 zero, ERR bits 7:4, bits 31:8 zero (R32 to R35). -/
def statusWord (s : State) : Word :=
  0#24 ++ s.err ++ 0#2 ++ BitVec.ofBool s.done ++ BitVec.ofBool s.busy

/-- Command issue (43_host_interface.md R303): `CMD <- w; BUSY <- 1; DONE <- 0; ERR <- 0`, nothing else. -/
def State.issue (s : State) (w : Word) : State :=
  { s with cmd := w, busy := true, done := false, err := 0 }

end Sys2Proof.Machine
end

