-- ==== Sys2Proof/Machine/Ops.lean ====
section
/-! DEFINITION. The shared operations: bit and byte helpers (00_scope.md R12 to R16), buffer accesses (R17), the completion
of a command with its error code (60_exceptions.md R340, R348), free draws, faults and the reset input. -/

namespace Sys2Proof.Machine

/-! ### Bits -/

/-- `permute(T, N, x)` (R15): output position j is input position T[j]; position 1 is the most significant bit (R12).
An entry outside 1..N occurs in refused table sets only (log entry 11). -/
def permute {n m : Nat} (t : Vector Nat m) (x : BitVec n) : BitVec m :=
  (BitVec.ofBoolListBE (t.toList.map fun p => x.getMsbD (p - 1))).cast (by simp)

/-- `rotl28(x, s)` for s in {1, 2} (R16): `((x * 2^s) mod 2^28) + (x div 2^(28-s))`. -/
def rotl28 (x : KeyHalf) (r : Nat) : KeyHalf := (x <<< r) + (x >>> (28 - r))

/-- `zext_64` (R16). -/
def zext64 {n : Nat} (v : BitVec n) : Block := v.setWidth 64

/-- `hi32` (R13). -/
def hi32 (x : Block) : Half := x.extractLsb' 32 32

/-- `lo32` (R13). -/
def lo32 (x : Block) : Half := x.extractLsb' 0 32

/-- `hi28` (R13). -/
def hi28 (x : BitVec 56) : KeyHalf := x.extractLsb' 28 28

/-- `lo28` (R13). -/
def lo28 (x : BitVec 56) : KeyHalf := x.extractLsb' 0 28

/-! ### Byte sequences -/

/-- `zeros(k)`: k bytes of 0x00 (R14). -/
def zeros (k : Nat) : List Byte := List.replicate k 0#8

/-- `s[a..a+k)` (R14). -/
def slice (s : List Byte) (a k : Nat) : List Byte := (s.drop a).take k

/-- `pack8(s)` of an 8-byte sequence: s0 is bits 63:56 (R14, 20_memory.md R72). -/
def pack8 (s : List Byte) : Block :=
  s.getD 0 0 ++ s.getD 1 0 ++ s.getD 2 0 ++ s.getD 3 0 ++ s.getD 4 0 ++ s.getD 5 0 ++ s.getD 6 0 ++ s.getD 7 0

/-- `unpack8(v)`: byte k is `v[63-8k:56-8k]` (R14). -/
def unpack8 (v : Block) : List Byte :=
  [v.extractLsb' 56 8, v.extractLsb' 48 8, v.extractLsb' 40 8, v.extractLsb' 32 8,
   v.extractLsb' 24 8, v.extractLsb' 16 8, v.extractLsb' 8 8, v.extractLsb' 0 8]

/-- The first m blocks of a byte sequence: block j is `pack8(s[8j..8j+8))` (20_memory.md R73). -/
def blocksOf : Nat → List Byte → List Block
  | 0, _ => []
  | m + 1, s => pack8 (s.take 8) :: blocksOf m (s.drop 8)

/-- The bytes of a sequence of blocks, in order (20_memory.md R73). -/
def bytesOf (bs : List Block) : List Byte := bs.flatMap unpack8

/-! ### Buffers -/

/-- The canonical form of a buffer: indices strictly rising. An unlisted index has no value, so no entry repeats it. -/
abbrev Memory.wf (m : Memory) : Prop := (m.map Prod.fst).Pairwise (· < ·)

/-- The byte at an index, or none where it is unwritten (10_state.md R44, R45). -/
def Memory.read : Memory → Nat → Option Byte
  | [], _ => none
  | (k, b) :: m, a => if k = a then some b else Memory.read m a

/-- Write one byte; the byte becomes written (43_host_interface.md R306). -/
def Memory.write : Memory → Nat → Byte → Memory
  | [], a, b => [(a, b)]
  | (k, c) :: m, a, b =>
    if a < k then (a, b) :: (k, c) :: m
    else if a = k then (a, b) :: m
    else (k, c) :: Memory.write m a b

/-- `MemRead(IN, a, n)` (R17), or none where a byte of `IN[a..a+n)` is unwritten (20_memory.md R91). -/
def Memory.readBytes (m : Memory) (a : Nat) : Nat → Option (List Byte)
  | 0 => some []
  | n + 1 =>
    match Memory.read m a, Memory.readBytes m (a + 1) n with
    | some b, some bs => some (b :: bs)
    | _, _ => none

/-- `MemWrite(OUT, a, n, s)` with n = len(s) (R17). -/
def Memory.writeBytes (m : Memory) (a : Nat) : List Byte → Memory
  | [] => m
  | b :: bs => Memory.writeBytes (Memory.write m a b) (a + 1) bs

/-! ### Free values -/

/-- How many free values one `Hidden.draw` takes. -/
def hiddenDraws : Nat := 9

/-- A mode case read off a free value. -/
def ModeCase.ofFree (n : Nat) : ModeCase :=
  match n % 4 with
  | 0 => .empty
  | 1 => .full
  | 2 => .short
  | _ => .general

/-- The hidden registers at free values, each with a draw of its own, from draw n on (93 I12; log entry 3). -/
def Hidden.draw (n : Nat) : Hidden where
  c := (Config.freeValue n).setWidth 28
  d := (Config.freeValue (n + 1)).setWidth 28
  l := (Config.freeValue (n + 2)).setWidth 32
  r := (Config.freeValue (n + 3)).setWidth 32
  prev := Config.freeValue (n + 4)
  round := (Config.freeValue (n + 5)).setWidth 4
  step := (Config.freeValue (n + 6)).setWidth 5
  pos := (Config.freeValue (n + 7)).setWidth 32
  mode := ModeCase.ofFree (Config.freeValue (n + 8)).toNat

/-! ### Completion, errors, faults, reset -/

/-- The completion of a command with an error code: `BUSY <- 0; DONE <- 1; ERR <- code` (43_host_interface.md R304).
The hidden registers are unspecified after it (R46 to R49). -/
def State.complete (s : State) (code : ErrCode) : State :=
  { s with busy := false, done := true, err := code.bits,
           hidden := Hidden.draw s.draws, draws := s.draws + hiddenDraws }

/-- `raise Error(code)` (R17): the whole of taking an error on FCRE (60_exceptions.md R340, R348, R349).
It completes the command, writes only STATUS, saves nothing and transfers control nowhere; there is no return (R350). -/
def raiseError (s : State) (code : ErrCode) : Result := .next (s.complete code)

/-- The state with the moves to come replaced (log entry 5). -/
def State.withAgenda (s : State) (moves : List Event) : State := { s with agenda := moves }

/-- Record a model fault (R351): a step whose action faults leaves the state it found, with the fault recorded.
Log entry 8. -/
def recordFault (s : State) : Result → Result
  | .next t => .next t
  | .fault f => .next { s with faulted := some f }
  | .refused r => .refused r

/-- The reset input (70_reset_and_hazards.md R380): the reset state, whatever FCRE was doing.
The hidden registers are unspecified after it (R383); the parameters, the draw counter and the agenda are not FCRE's state.
Log entry 10. -/
def State.assertReset (s : State) : State :=
  { State.resetFor s.params with
      hidden := Hidden.draw s.draws, draws := s.draws + hiddenDraws, agenda := s.agenda }

end Sys2Proof.Machine
end

