-- ==== Sys2Proof/Machine/Operands.lean ====
section
/-! DEFINITION. The operand forms: the register map (10_state.md R55) with whole-register reads and writes (20_memory.md
R75), the length operands, and the input message (30_encoding.md R102). -/

namespace Sys2Proof.Machine

/-- The register a register number names (R55). -/
def regOf (n : BitVec 8) : Reg :=
  match n.toNat with
  | 0x00 => .cmd
  | 0x01 => .status
  | 0x02 => .key
  | 0x03 => .iv
  | 0x04 => .blkIn
  | 0x05 => .blkOut
  | 0x06 => .len
  | 0x07 => .plen
  | 0x08 => .outLen
  | k => if h : 0x10 ≤ k ∧ k < 0x20 then .rk ⟨k - 0x10, by omega⟩ else .reserved

/-- The registers whose value a running command may be changing: a read while BUSY = 1 returns any value
(43_host_interface.md R309). -/
def Reg.isResult : Reg → Bool
  | .blkOut => true
  | .outLen => true
  | .rk _ => true
  | _ => false

/-- The stored value of a register, zero-extended to 64 bits (43_host_interface.md R301). -/
def readReg (s : State) : Reg → Block
  | .cmd => zext64 s.cmd
  | .status => zext64 (statusWord s)
  | .key => s.key
  | .iv => s.iv
  | .blkIn => s.blkIn
  | .blkOut => s.blkOut
  | .len => zext64 s.len
  | .plen => zext64 s.plen
  | .outLen => zext64 s.outLen
  | .rk i => zext64 s.rk[i]
  | .reserved => 0

/-- A register write while BUSY = 0 (43_host_interface.md R302, R303): the low bits that fit are stored, the rest dropped
(R75). A write to CMD issues a command; a write to a read-only or reserved register is ignored (R79, R81). -/
def writeReg (s : State) (v : Block) : Reg → State
  | .cmd => s.issue (v.setWidth 32)
  | .status => s
  | .key => { s with key := v }
  | .iv => { s with iv := v }
  | .blkIn => { s with blkIn := v }
  | .blkOut => s
  | .len => { s with len := v.setWidth 32 }
  | .plen => { s with plen := v.setWidth 32 }
  | .outLen => s
  | .rk i => { s with rk := s.rk.set i (v.setWidth 48) }
  | .reserved => s

/-- `full = (n div 8) * 8` (42_cbc_cts.md R241). -/
def fullLen (n : Nat) : Nat := n / 8 * 8

/-- `d = n - full` (42_cbc_cts.md R241). -/
def tailLen (n : Nat) : Nat := n - fullLen n

/-- The input message `IN[0..n)` of a mode command, or none where one of its bytes is unwritten (20_memory.md R91).
It is read whole, before anything is written (log entry 13). -/
def inputMessage (s : State) (n : Nat) : Option (List Byte) := s.inBuf.readBytes 0 n

end Sys2Proof.Machine
end

