-- ==== Sys2Proof/Machine/Control.lean ====
section
/-! DEFINITION. The NOP family (43_host_interface.md R310). -/

namespace Sys2Proof.Machine

/-- NOP (R310): nothing but the completion with ERR = 0. -/
def execNop (s : State) : Result := .next (s.complete .ok)

end Sys2Proof.Machine
end

