-- ==== Sys2Proof/Machine/Engine.lean ====
section
/-! DEFINITION. The block cipher engine (41_cipher_engine.md): permutation units, S-box array, key scheduler, round processor,
and the commands DERIVE and XFORM. -/

namespace Sys2Proof.Machine

/-! ### Permutation units -/

/-- The IP unit (R180). -/
def ip (t : Tables) (x : Block) : Block := permute t.ip x

/-- The FP unit (R181). -/
def fp (t : Tables) (x : Block) : Block := permute t.fp x

/-- The E unit (R182). -/
def expand (t : Tables) (r : Half) : RoundKey := permute t.e r

/-- The P unit (R183). -/
def pperm (t : Tables) (x : Half) : Half := permute t.p x

/-- The PC1 unit (R184). -/
def pc1 (t : Tables) (k : Block) : BitVec 56 := permute t.pc1 k

/-- The PC2 unit (R185). -/
def pc2 (t : Tables) (cd : BitVec 56) : RoundKey := permute t.pc2 cd

/-! ### S-box array -/

/-- The row of an S-box input: `2*u[5] + u[0]` (R187, 40_tables.md R149). -/
def sboxRow (u : BitVec 6) : BitVec 2 := u.extractLsb' 5 1 ++ u.extractLsb' 0 1

/-- The column of an S-box input: `u[4:1]` (R187). -/
def sboxCol (u : BitVec 6) : BitVec 4 := u.extractLsb' 1 4

/-- An S-box lane `sbox(k, u)` (R187); the lane S1 is `k = 0` here.
An entry above 15 occurs in refused table sets only (log entry 11). -/
def sbox (t : Tables) (k : Fin 8) (u : BitVec 6) : BitVec 4 :=
  BitVec.ofNat 4
    ((t.sboxes[k][(sboxRow u).toNat]'(sboxRow u).isLt)[(sboxCol u).toNat]'(sboxCol u).isLt)

/-- The S-box array (R188): lane k reads positions 6k-5 to 6k and gives positions 4k-3 to 4k. -/
def subst (t : Tables) (x : RoundKey) : Half :=
  sbox t 0 (x.extractLsb' 42 6) ++ sbox t 1 (x.extractLsb' 36 6) ++
  sbox t 2 (x.extractLsb' 30 6) ++ sbox t 3 (x.extractLsb' 24 6) ++
  sbox t 4 (x.extractLsb' 18 6) ++ sbox t 5 (x.extractLsb' 12 6) ++
  sbox t 6 (x.extractLsb' 6 6) ++ sbox t 7 (x.extractLsb' 0 6)

/-- The round function `f(r, k)` (R189). -/
def roundFn (t : Tables) (r : Half) (k : RoundKey) : Half := pperm t (subst t (expand t r ^^^ k))

/-! ### Key scheduler -/

/-- The key-schedule steps (R191, R192): each rotates the halves of the step before, cumulatively, and gives
`pc2(C ‖ D)`. -/
def keySteps (t : Tables) : List Nat → KeyHalf → KeyHalf → List RoundKey
  | [], _, _ => []
  | r :: rs, c, d => pc2 t (rotl28 c r ++ rotl28 d r) :: keySteps t rs (rotl28 c r) (rotl28 d r)

/-- The round keys K_1 to K_16 in generation order (R190 to R193). -/
def forwardKeys (t : Tables) (k : Block) : List RoundKey :=
  keySteps t t.shifts.toList (hi28 (pc1 t k)) (lo28 (pc1 t k))

/-- The schedule as a list: reversed by list reversal, whatever the tables hold (R193, R194). -/
def scheduleList (t : Tables) (k : Block) (reversed : Bool) : List RoundKey :=
  if reversed then (forwardKeys t k).reverse else forwardKeys t k

theorem keySteps_length (t : Tables) (rs : List Nat) (c d : KeyHalf) :
    (keySteps t rs c d).length = rs.length := by
  induction rs generalizing c d with
  | nil => rfl
  | cons r rs ih => simp [keySteps, ih]

theorem scheduleList_length (t : Tables) (k : Block) (reversed : Bool) :
    (scheduleList t k reversed).length = 16 := by
  cases reversed <;> simp [scheduleList, forwardKeys, keySteps_length]

/-- `deriveRoundKeys(K, reversed)` (R193): 16 round keys. It never fails. -/
def deriveRoundKeys (t : Tables) (k : Block) (reversed : Bool) : Vector RoundKey 16 :=
  ⟨(scheduleList t k reversed).toArray, by simp [scheduleList_length]⟩

/-! ### Round processor -/

/-- One round (R196): the old R becomes the new L, and `L xor f(R, k)` the new R. -/
def round (t : Tables) (lr : Half × Half) (k : RoundKey) : Half × Half :=
  (lr.2, lr.1 ^^^ roundFn t lr.2 k)

/-- The rounds over a schedule (R196). -/
def rounds (t : Tables) (ks : List RoundKey) (lr : Half × Half) : Half × Half := ks.foldl (round t) lr

/-- The round processor's end (R197): the halves swapped once more, then FP. -/
def finish (t : Tables) (lr : Half × Half) : Block := fp t (lr.2 ++ lr.1)

/-- `transformBlock(B, ks)` (R198). -/
def transformBlock (t : Tables) (b : Block) (ks : Vector RoundKey 16) : Block :=
  finish t (rounds t ks.toList (hi32 (ip t b), lo32 (ip t b)))

/-- `Encrypt(B)` under a key (R199). -/
def encryptBlock (t : Tables) (k : Block) (b : Block) : Block := transformBlock t b (deriveRoundKeys t k false)

/-- `Decrypt(B)` under a key (R199). -/
def decryptBlock (t : Tables) (k : Block) (b : Block) : Block := transformBlock t b (deriveRoundKeys t k true)

/-! ### Commands -/

/-- DERIVE (R202): `RK[j] <- deriveRoundKeys(KEY, REV)[j]`. It cannot fail once decoded. -/
def execDerive (rev : Bool) (s : State) : Result :=
  .next (State.complete { s with rk := deriveRoundKeys s.params.tables s.key rev } .ok)

/-- XFORM (R203): `BLK_OUT <- transformBlock(BLK_IN, RK)`. It cannot fail once decoded. -/
def execXform (s : State) : Result :=
  .next (State.complete { s with blkOut := transformBlock s.params.tables s.blkIn s.rk } .ok)

end Sys2Proof.Machine
end

