-- ==== Sys2Proof/Machine/Mode.lean ====
section
/-! DEFINITION. The CBC-CTS mode controller (42_cbc_cts.md): the chaining steps, the length-dependent cases, and the commands
CTS_ENC and CTS_DEC. -/

namespace Sys2Proof.Machine

/-! ### Chaining -/

/-- The CBC encrypt step (R242): the output block and the next chain value. -/
def encStep (enc : Block → Block) (prev p : Block) : Block × Block := (enc (p ^^^ prev), enc (p ^^^ prev))

/-- The CBC decrypt step (R243): the output block and the next chain value. -/
def decStep (dec : Block → Block) (prev c : Block) : Block × Block := (dec c ^^^ prev, c)

/-- A chaining step threaded through blocks: the output blocks, and PREV after the last (R246, R256). -/
def chain (stepFn : Block → Block → Block × Block) : Block → List Block → List Block × Block
  | prev, [] => ([], prev)
  | prev, b :: bs =>
    ((stepFn prev b).1 :: (chain stepFn (stepFn prev b).2 bs).1, (chain stepFn (stepFn prev b).2 bs).2)

/-! ### Encryption -/

/-- Case selection of CTS_ENC (R244), the first that matches. -/
def encCase (n : Nat) : ModeCase :=
  if n = 0 then .empty
  else if tailLen n = 0 then .full
  else if fullLen n = 0 then .short
  else .general

/-- The output length of CTS_ENC (R245 to R247, R250; R252). -/
def encOutLen (n : Nat) : Nat :=
  match encCase n with
  | .empty => 0
  | .full => n
  | .short => 8
  | .general => n

/-- Full blocks (R246): CBC over the n / 8 blocks. -/
def encFull (enc : Block → Block) (iv : Block) (msg : List Byte) : List Byte :=
  bytesOf (chain (encStep enc) iv (blocksOf (msg.length / 8) msg)).1

/-- Short input (R247): zero-padded to one block and encrypted against the IV. -/
def encShort (enc : Block → Block) (iv : Block) (msg : List Byte) : List Byte :=
  unpack8 (enc (pack8 (msg ++ zeros (8 - msg.length)) ^^^ iv))

/-- General case (R248 to R250): the leading m - 1 blocks; then the first d bytes of C(n-1); then all of C(n). -/
def encGeneral (enc : Block → Block) (iv : Block) (msg : List Byte) : List Byte :=
  let full := fullLen msg.length
  let d := tailLen msg.length
  let lead := chain (encStep enc) iv (blocksOf (full / 8 - 1) msg)
  let cn1 := enc (pack8 (slice msg (full - 8) 8) ^^^ lead.2)
  let cn := enc (pack8 (slice msg full d ++ zeros (8 - d)) ^^^ cn1)
  bytesOf lead.1 ++ (unpack8 cn1).take d ++ unpack8 cn

/-- The bytes CTS_ENC emits for a message, in order, from OUT index 0 on (R245 to R250). -/
def encBytes (enc : Block → Block) (iv : Block) (msg : List Byte) : List Byte :=
  match encCase msg.length with
  | .empty => []
  | .full => encFull enc iv msg
  | .short => encShort enc iv msg
  | .general => encGeneral enc iv msg

/-- `cbcCtsEncrypt(plaintext, key)` with the IV as a parameter (00_scope.md R6, R251). -/
def cbcCtsEncrypt (t : Tables) (key iv : Block) (msg : List Byte) : List Byte :=
  encBytes (encryptBlock t key) iv msg

/-! ### Decryption -/

/-- The accepted length pairs of CTS_DEC (R254): n = LEN, p = PLEN, d = p mod 8. -/
def decAccepts (n p : Nat) : Bool :=
  if p % 8 = 0 then n == p
  else if n < 8 + p % 8 then n == 8 && decide (p < 8)
  else n == p

/-- Case selection of CTS_DEC for an accepted pair (R255). -/
def decCase (n p : Nat) : ModeCase :=
  if p % 8 = 0 then .full
  else if n < 8 + p % 8 then .short
  else .general

/-- Full blocks (R256). -/
def decFull (dec : Block → Block) (iv : Block) (msg : List Byte) : List Byte :=
  bytesOf (chain (decStep dec) iv (blocksOf (msg.length / 8) msg)).1

/-- Short case (R257): the sole block decrypted, xored with the IV, cut to p bytes. -/
def decShort (dec : Block → Block) (iv : Block) (msg : List Byte) (p : Nat) : List Byte :=
  (unpack8 (dec (pack8 (slice msg 0 8)) ^^^ iv)).take p

/-- General case (R258 to R261): the leading blocks, then P(n-1), then P(n)*. -/
def decGeneral (dec : Block → Block) (iv : Block) (msg : List Byte) (p : Nat) : List Byte :=
  let d := p % 8
  let preLen := msg.length - (8 + d)
  let lead := chain (decStep dec) iv (blocksOf (preLen / 8) msg)
  let cn := pack8 (slice msg (preLen + d) 8)
  let z := unpack8 (dec cn)
  let cn1 := pack8 (slice msg preLen d ++ z.drop d)
  bytesOf lead.1 ++ unpack8 (dec cn1 ^^^ lead.2) ++ (unpack8 (pack8 z ^^^ cn1)).take d

/-- The bytes CTS_DEC emits for an accepted ciphertext and plaintext length, from OUT index 0 on (R256 to R261). -/
def decBytes (dec : Block → Block) (iv : Block) (msg : List Byte) (p : Nat) : List Byte :=
  match decCase msg.length p with
  | .empty => []
  | .full => decFull dec iv msg
  | .short => decShort dec iv msg p
  | .general => decGeneral dec iv msg p

/-- `cbcCtsDecrypt(ciphertext, key)` with the IV and `plaintext_len` as parameters (00_scope.md R6, R262). -/
def cbcCtsDecrypt (t : Tables) (key iv : Block) (msg : List Byte) (p : Nat) : List Byte :=
  decBytes (decryptBlock t key) iv msg p

/-! ### Commands -/

/-- The results of a mode command on success: the emitted bytes at `OUT[0..)`, OUT_LEN, and the schedule in RK
(R240, R266). -/
def State.emit (s : State) (bytes : List Byte) (n : Nat) (ks : Vector RoundKey 16) : State :=
  { s with outBuf := s.outBuf.writeBytes 0 bytes, outLen := BitVec.ofNat 32 n, rk := ks }

/-- CTS_ENC (R251): the range check, then the message, then the results. -/
def execCtsEnc (s : State) : Result :=
  if s.params.maxLen.val < s.len.toNat then raiseError s .lenRange
  else
    match inputMessage s s.len.toNat with
    | none => .fault .unwrittenInput
    | some msg =>
      .next ((s.emit (cbcCtsEncrypt s.params.tables s.key s.iv msg) (encOutLen s.len.toNat)
        (deriveRoundKeys s.params.tables s.key false)).complete .ok)

/-- CTS_DEC (R262): the range check before the pair check (60_exceptions.md R347), then the message, then the results. -/
def execCtsDec (s : State) : Result :=
  if s.params.maxLen.val < s.len.toNat ∨ s.params.maxLen.val < s.plen.toNat then raiseError s .lenRange
  else if decAccepts s.len.toNat s.plen.toNat = false then raiseError s .decLength
  else
    match inputMessage s s.len.toNat with
    | none => .fault .unwrittenInput
    | some msg =>
      .next ((s.emit (cbcCtsDecrypt s.params.tables s.key s.iv msg s.plen.toNat) s.plen.toNat
        (deriveRoundKeys s.params.tables s.key true)).complete .ok)

end Sys2Proof.Machine
end

