-- ==== Sys2Proof/Machine/Dispatch.lean ====
section
/-! DEFINITION. The dispatch of a decoded command to its meaning (43_host_interface.md R304). -/

namespace Sys2Proof.Machine

def exec (i : Instr) (s : State) : Host.Outcome State Fault Refusal :=
  match i with
  | .nop => Sys2Proof.Machine.execNop s
  | .derive rev => Sys2Proof.Machine.execDerive rev s
  | .xform => Sys2Proof.Machine.execXform s
  | .ctsEnc => Sys2Proof.Machine.execCtsEnc s
  | .ctsDec => Sys2Proof.Machine.execCtsDec s

end Sys2Proof.Machine
end

