-- ==== Sys2Proof/Machine/HostAccess.lean ====
section
/-! DEFINITION. The host's accesses (43_host_interface.md R301 to R309). -/

namespace Sys2Proof.Machine

/-- A read that returns v on the bus. It has no other effect (20_memory.md R78). -/
def State.respond (s : State) (v : Block) : State := { s with reply := some v }

/-- A read that returns any value (R309): a fresh draw. Log entry 6. -/
def State.respondFree (s : State) : State :=
  { s with reply := some (Config.freeValue s.draws), draws := s.draws + 1 }

/-- A read that returns any byte, zero-extended (R308, R309). Log entry 6. -/
def State.respondFreeByte (s : State) : State :=
  { s with reply := some (zext64 ((Config.freeValue s.draws).setWidth 8)), draws := s.draws + 1 }

/-- RegRead(n) (R301): the stored value, or any value for a result register while BUSY = 1 (R309). -/
def regRead (n : BitVec 8) (s : State) : Result :=
  if s.busy && (regOf n).isResult then .next s.respondFree else .next (s.respond (readReg s (regOf n)))

/-- RegWrite(n, v): a fault while BUSY = 1 (R305), else the write (R302) or the issue of a command (R303). -/
def regWrite (n : BitVec 8) (v : Block) (s : State) : Result :=
  if s.busy then .fault .hostWriteWhileBusy
  else .next (writeReg { s with reply := none } v (regOf n))

/-- InWrite(a, b): a fault while BUSY = 1 (R305); ignored at an index of MAX_LEN or above (R306, 20_memory.md R80). -/
def inWrite (a : Nat) (b : Byte) (s : State) : Result :=
  if s.busy then .fault .hostWriteWhileBusy
  else if a < s.params.maxLen.val then .next { s with reply := none, inBuf := s.inBuf.write a b }
  else .next { s with reply := none }

/-- InRead(a) (R307): 0 at an index of MAX_LEN or above; a fault where the byte is unwritten. -/
def inRead (a : Nat) (s : State) : Result :=
  if a < s.params.maxLen.val then
    match s.inBuf.read a with
    | some b => .next (s.respond (zext64 b))
    | none => .fault .unwrittenRead
  else .next (s.respond 0)

/-- OutRead(a) (R308): 0 at an index of MAX_LEN or above; any byte while BUSY = 1; else the byte, or a fault where it is
unwritten. -/
def outRead (a : Nat) (s : State) : Result :=
  if a < s.params.maxLen.val then
    if s.busy then .next s.respondFreeByte
    else
      match s.outBuf.read a with
      | some b => .next (s.respond (zext64 b))
      | none => .fault .unwrittenRead
  else .next (s.respond 0)

/-- The host accesses (R314). -/
def hostAccess (a : HostAction) (s : State) : Result :=
  match a with
  | .regRead n => regRead n s
  | .regWrite n v => regWrite n v s
  | .inWrite i b => inWrite i b s
  | .inRead i => inRead i s
  | .outRead i => outRead i s

end Sys2Proof.Machine
end

