-- ==== Sys2Proof/Machine/Agents.lean ====
section
/-! DEFINITION. The moves of the agents (43_host_interface.md R300, R304, R311): the engine step, and whose turn is next. -/

namespace Sys2Proof.Machine

/-- The engine step (R304), for BUSY = 1: decode the latched word and perform the whole command, or complete it with
ILLEGAL_CMD (60_exceptions.md R342). -/
def engineStep (s : State) : Result :=
  match decode s.cmd with
  | .error _ => raiseError s .illegalCmd
  | .ok i => exec i s

/-- The engine's turn: its step is enabled iff BUSY = 1 (R300, R304); a turn that comes while it is not enabled passes.
Log entry 5. -/
def engineTurn (s : State) : Result := if s.busy then engineStep s else .next s

/-- One move of an agenda entry. -/
def takeTurn (e : Event) (s : State) : Result :=
  match e with
  | .host a => hostAccess a s
  | .engine => engineTurn s
  | .reset => .next s.assertReset

/-- The next move: the oldest entry of the agenda; with an empty agenda the engine, whose pending step is always taken in
the end (R311), or nothing while FCRE is idle (60_exceptions.md R359). -/
def advance (s : State) : Result :=
  match s.agenda with
  | [] => recordFault s (engineTurn s)
  | e :: rest => recordFault (s.withAgenda rest) (takeTurn e (s.withAgenda rest))

end Sys2Proof.Machine
end

