-- ==== Sys2Proof/Machine/Step.lean ====
section
/-! DEFINITION. One step of the machine, and the placing of a command word for the next step. -/

namespace Sys2Proof.Machine

/-- One step. A state with a recorded fault has no next state (60_exceptions.md R351); a table set that fails
40_tables.md R158 takes no step either (the reset state of such an instance records it, `State.resetFor`); otherwise the
next move is made (43_host_interface.md R314). -/
def step (s : State) : Host.Outcome State Fault Refusal :=
  match s.faulted with
  | some f => .fault f
  | none => if s.params.tables.wf then advance s else .fault .badTables

/-- `s` with the command word w issued (43_host_interface.md R303) and the engine's turn next, so that the next step runs
it. FCRE fetches no instructions (20_memory.md R89): this stands for the RegWrite to CMD that issues the word.
Log entry 5. -/
def State.withFetchWord (s : State) (nbits w : Nat) : State :=
  (s.issue (BitVec.ofNat 32 (w % 2 ^ nbits))).withAgenda (.engine :: s.agenda)

end Sys2Proof.Machine
end

