-- ==== Sys2Proof/Machine/Script.lean ====
section
/-! DEFINITION. The host-script notation of 30_encoding.md R108 to R111: statements, pseudo-instructions, and the agenda
entries (bus transactions) they stand for. Pure notation: no command and no step depends on it. -/

namespace Sys2Proof.Machine

/-- The register numbers of the named registers (10_state.md R55). -/
def regNum : Reg → BitVec 8
  | .cmd => 0x00
  | .status => 0x01
  | .key => 0x02
  | .iv => 0x03
  | .blkIn => 0x04
  | .blkOut => 0x05
  | .len => 0x06
  | .plen => 0x07
  | .outLen => 0x08
  | .rk i => BitVec.ofNat 8 (0x10 + i.val)
  | .reserved => 0x09

/-- A host statement (R108). A register is given by its number, since a number may stand in place of a name. -/
inductive HostStmt where
  /-- `wr REG, v` -/
  | wr (n : BitVec 8) (v : Block)
  /-- `rd REG` -/
  | rd (n : BitVec 8)
  /-- `wrin a, b0, b1, ...` -/
  | wrin (a : Nat) (bs : List Byte)
  /-- `rdin a, n` -/
  | rdin (a n : Nat)
  /-- `rdout a, n` -/
  | rdout (a n : Nat)
  /-- `cmd m`, with the command word of m (R104, R108) -/
  | cmd (w : Word)
  /-- `poll` -/
  | poll
  deriving DecidableEq, Repr

/-- The ASCII bytes of a text (R108, R109). -/
def ascii (text : List Char) : List Byte := text.map fun c => BitVec.ofNat 8 c.toNat

/-- The literal helper of R109: `"8chars"` is `pack8` of its bytes, and must be exactly 8 characters. -/
def literal8 (text : List Char) : Option Block :=
  if text.length = 8 then some (pack8 (ascii text)) else none

/-- `poll` in a run where the engine takes its turn after `busyReads` reads of STATUS: the read repeats until bit 0 is 0
(R108; the encodings of 95_test_vectors.md show it with no busy read). Log entry 14. -/
def pollEvents (busyReads : Nat) : List Event :=
  List.replicate busyReads (.host (.regRead (regNum .status))) ++ [.engine, .host (.regRead (regNum .status))]

/-- The agenda entries of a statement (R108, R111). -/
def HostStmt.events (busyReads : Nat) : HostStmt → List Event
  | .wr n v => [.host (.regWrite n v)]
  | .rd n => [.host (.regRead n)]
  | .wrin a bs => bs.zipIdx.map fun p => .host (.inWrite (a + p.2) p.1)
  | .rdin a n => (List.range n).map fun k => .host (.inRead (a + k))
  | .rdout a n => (List.range n).map fun k => .host (.outRead (a + k))
  | .cmd w => [.host (.regWrite (regNum .cmd) (zext64 w))]
  | .poll => pollEvents busyReads

/-- The agenda entries of a script. -/
def scriptEvents (busyReads : Nat) (p : List HostStmt) : List Event := p.flatMap (HostStmt.events busyReads)

/-- `run m` (R110). -/
def runStmt (i : Instr) : List HostStmt := [.cmd (encode i), .poll]

/-- `encblk K, B` (R110). -/
def encblkStmt (k b : Block) : List HostStmt :=
  .wr (regNum .key) k :: runStmt (.derive false) ++ .wr (regNum .blkIn) b :: runStmt .xform

/-- `decblk K, B` (R110). -/
def decblkStmt (k b : Block) : List HostStmt :=
  .wr (regNum .key) k :: runStmt (.derive true) ++ .wr (regNum .blkIn) b :: runStmt .xform

/-- `encrypt K, "text"` (R110). -/
def encryptStmt (k : Block) (text : List Byte) : List HostStmt :=
  .wr (regNum .key) k :: .wrin 0 text :: .wr (regNum .len) (BitVec.ofNat 64 text.length) :: runStmt .ctsEnc

/-- `decrypt K, n, p` (R110). -/
def decryptStmt (k n p : Block) : List HostStmt :=
  .wr (regNum .key) k :: .wr (regNum .len) n :: .wr (regNum .plen) p :: runStmt .ctsDec

/-- `clear` (R110). -/
def clearStmt : List HostStmt := runStmt .nop

end Sys2Proof.Machine
end

