-- ==== Sys2Proof/Safety.lean ====
section
/-! DEFINITION. What counts as a safe run: the end of a run (43_host_interface.md R312), and the invariant of the state. -/

namespace Sys2Proof.Machine

/-- The end of a run (R312): nothing left to do, BUSY = 0, no fault recorded, and a table set that is not refused (60_exceptions.md
R351). -/
abbrev State.final (s : State) : Prop :=
  s.agenda = [] ∧ s.busy = false ∧ s.faulted = none ∧ s.params.tables.wf = true

/-- The step is the engine's: its turn is next, or the agenda is empty (log entry 5). -/
abbrev State.engineNext (s : State) : Prop := s.agenda = [] ∨ ∃ rest, s.agenda = .engine :: rest

/-- A host access that reads (20_memory.md R78): it may be made while BUSY = 1 (R309, 60_exceptions.md R353). -/
def HostAction.isRead : HostAction → Bool
  | .regRead _ => true
  | .regWrite _ _ => false
  | .inWrite _ _ => false
  | .inRead _ => true
  | .outRead _ => true

/-- Every index a buffer lists is below its capacity (10_state.md R44, R45). -/
abbrev Memory.within (m : Memory) (n : Nat) : Prop := ∀ c ∈ m, c.1 < n

/-- What every reachable state satisfies. -/
structure State.Inv (s : State) : Prop where
  /-- IN is in canonical form. -/
  inWf       : s.inBuf.wf
  /-- OUT is in canonical form. -/
  outWf      : s.outBuf.wf
  /-- IN lists indices below MAX_LEN only (R44). -/
  inWithin   : s.inBuf.within s.params.maxLen.val
  /-- OUT lists indices below MAX_LEN only (R45). -/
  outWithin  : s.outBuf.within s.params.maxLen.val
  /-- BUSY and DONE are never both 1 (R33). -/
  notBoth    : ¬ (s.busy = true ∧ s.done = true)
  /-- ERR holds a legal code (R34; codes 4 to 15 are never written, R345). -/
  errLegal   : s.err.toNat ≤ 3
  /-- A nonzero ERR belongs to a completed command (R34: an issue clears it). -/
  errDone    : s.err ≠ 0 → s.done = true
  /-- OUT_LEN is at most MAX_LEN (R42, R343). -/
  outLenMax  : s.outLen.toNat ≤ s.params.maxLen.val
  /-- Every byte of `OUT[0..OUT_LEN)` is written (R45, 70_reset_and_hazards.md R385). -/
  outWritten : ∀ a, a < s.outLen.toNat → (s.outBuf.read a).isSome = true
  /-- A table set that fails R158 has a recorded fault (60_exceptions.md R351). -/
  badFaulted : s.params.tables.wf = false → s.faulted ≠ none

/-! ### Frames: what a command leaves unchanged -/

/-- No command writes these: the parameters, CMD, KEY, IV, BLK_IN, LEN, PLEN (R31, R36 to R41) and every byte of IN (R44). -/
structure OperandsKept (s t : State) : Prop where
  params : t.params = s.params
  cmd    : t.cmd = s.cmd
  key    : t.key = s.key
  iv     : t.iv = s.iv
  blkIn  : t.blkIn = s.blkIn
  len    : t.len = s.len
  plen   : t.plen = s.plen
  inRead : ∀ a, t.inBuf.read a = s.inBuf.read a

/-- The results stay as they were: BLK_OUT, OUT_LEN, RK and every byte of OUT. -/
structure ResultsKept (s t : State) : Prop where
  blkOut  : t.blkOut = s.blkOut
  outLen  : t.outLen = s.outLen
  rk      : t.rk = s.rk
  outRead : ∀ a, t.outBuf.read a = s.outBuf.read a

/-- The recorded fault and the model's own bus value and agenda stay as they were. -/
structure RunKept (s t : State) : Prop where
  faulted : t.faulted = s.faulted
  reply   : t.reply = s.reply
  agenda  : t.agenda = s.agenda

/-- STATUS stays as it was. -/
structure StatusKept (s t : State) : Prop where
  busy : t.busy = s.busy
  done : t.done = s.done
  err  : t.err = s.err

/-- A command has completed with an error code: `BUSY <- 0; DONE <- 1; ERR <- code` (43_host_interface.md R304). -/
structure CompletedWith (t : State) (code : BitVec 4) : Prop where
  busy : t.busy = false
  done : t.done = true
  err  : t.err = code

/-- A command that ended in an error: only STATUS is written (60_exceptions.md R348). -/
structure OnlyStatusWritten (s t : State) (code : BitVec 4) : Prop where
  completed : CompletedWith t code
  operands  : OperandsKept s t
  results   : ResultsKept s t
  run       : RunKept s t

/-- Every byte of `IN[0..n)` is written (70_reset_and_hazards.md R385). -/
abbrev InWritten (s : State) (n : Nat) : Prop := ∀ a, a < n → (s.inBuf.read a).isSome = true

/-- The accepted length pairs (42_cbc_cts.md R254), path by path: full blocks, short, general. -/
abbrev AcceptedPair (n p : Nat) : Prop :=
  (p % 8 = 0 ∧ n = p) ∨ (p % 8 ≠ 0 ∧ n < 8 + p % 8 ∧ n = 8 ∧ p < 8) ∨ (p % 8 ≠ 0 ∧ 8 + p % 8 ≤ n ∧ n = p)

end Sys2Proof.Machine
end

