-- ==== Sys2Proof/Certificates/Slice0/Obligations.lean ====
section
/-! DEFINITION. The statements for the provers. Each docstring names the rule of spec/ it formalises. -/

open Sys2Proof Sys2Proof.Machine

/-! ### Command words -/

/-- R104, R105: a word decodes to a command exactly when it is the command's encoding. So decoding an encoded command gives
it back, with REV at either value, and no other word is legal. -/
def Obligations.DecodeInvertsEncode : Prop :=
  ∀ (w : Word) (i : Instr), decode w = .ok i ↔ encode i = w

/-- R104: the legal words are exactly these six, each with its command. -/
def Obligations.LegalWordsAreExactlySix : Prop :=
  ∀ w : Word,
    (decode w = .ok .nop ↔ w = 0x00000000#32) ∧
    (decode w = .ok (.derive false) ↔ w = 0x00000001#32) ∧
    (decode w = .ok (.derive true) ↔ w = 0x00000101#32) ∧
    (decode w = .ok .xform ↔ w = 0x00000002#32) ∧
    (decode w = .ok .ctsEnc ↔ w = 0x00000003#32) ∧
    (decode w = .ok .ctsDec ↔ w = 0x00000004#32) ∧
    ((∃ e, decode w = .error e) ↔
      w ≠ 0x00000000#32 ∧ w ≠ 0x00000001#32 ∧ w ≠ 0x00000101#32 ∧ w ≠ 0x00000002#32 ∧ w ≠ 0x00000003#32 ∧
        w ≠ 0x00000004#32)

/-- R101, R103: words written out bit by bit decode to the commands they stand for. A sanity statement. -/
def Obligations.WordsFromTheTableDecode : Prop :=
  decode 0b00000000000000000000000000000000#32 = .ok .nop ∧
  decode 0b00000000000000000000000000000001#32 = .ok (.derive false) ∧
  decode 0b00000000000000000000000100000001#32 = .ok (.derive true) ∧
  decode 0b00000000000000000000000000000010#32 = .ok .xform ∧
  decode 0b00000000000000000000000000000011#32 = .ok .ctsEnc ∧
  decode 0b00000000000000000000000000000100#32 = .ok .ctsDec

/-- R106: the illegal words are those of the three kinds (OP in 0x5 to 0xF; a bit of 31:9 or 7:4 set; REV with OP other than
0x1), and the engine step on each completes with ILLEGAL_CMD: never a fault, never a refusal. -/
def Obligations.IllegalWordsCompleteWithError : Prop :=
  ∀ s : State,
    ((∃ e, decode s.cmd = .error e) ↔
      5 ≤ (s.cmd.extractLsb' 0 4).toNat ∨ s.cmd.extractLsb' 9 23 ≠ 0 ∨ s.cmd.extractLsb' 4 4 ≠ 0 ∨
        (s.cmd.getLsbD 8 = true ∧ s.cmd.extractLsb' 0 4 ≠ 1#4)) ∧
    ((∃ e, decode s.cmd = .error e) → ∃ t, engineStep s = .next t ∧ OnlyStatusWritten s t 1#4)

/-! ### The step -/

/-- R304, R314: with BUSY = 1, a good table set and no recorded fault, the engine's turn runs the latched word's command:
the step is exec of it on the state with the turn taken off the agenda; a fault of it is recorded. With an empty agenda it
is the engine's turn as well (log entry 5). -/
def Obligations.StepRunsDecodedCommand : Prop :=
  ∀ (s : State) (i : Instr), s.faulted = none → s.params.tables.wf = true → s.busy = true → decode s.cmd = .ok i →
    (∀ rest, s.agenda = .engine :: rest →
      (∀ t, exec i { s with agenda := rest } = .next t → step s = .next t) ∧
      (∀ f, exec i { s with agenda := rest } = .fault f →
        step s = .next { s with agenda := rest, faulted := some f })) ∧
    (s.agenda = [] →
      (∀ t, exec i s = .next t → step s = .next t) ∧
      (∀ f, exec i s = .fault f → step s = .next { s with faulted := some f }))

/-- R300, R314: with a host access next on the agenda, the step performs it; a fault of it is recorded. -/
def Obligations.StepPerformsHostAccess : Prop :=
  ∀ (s : State) (a : HostAction) (rest : List Event), s.faulted = none → s.params.tables.wf = true →
    s.agenda = .host a :: rest →
      (∀ t, hostAccess a { s with agenda := rest } = .next t → step s = .next t) ∧
      (∀ f, hostAccess a { s with agenda := rest } = .fault f →
        step s = .next { s with agenda := rest, faulted := some f })

/-- R300, R304, R359: the engine step is enabled only while BUSY = 1: an engine turn at BUSY = 0, or an empty agenda then,
changes nothing but the agenda. That such a turn passes is the model's choice (log entry 5). -/
def Obligations.EngineIdleWhileNotBusy : Prop :=
  ∀ s : State, s.faulted = none → s.params.tables.wf = true → s.busy = false →
    (∀ rest, s.agenda = .engine :: rest → step s = .next { s with agenda := rest }) ∧
    (s.agenda = [] → step s = .next s)

/-- R351, R158: a recorded fault is never cleared: a faulted state has no next state, whatever its agenda holds, a reset
included (90_conflicts.md C7), and is never a final state. A table set that fails a condition of R158 is refused before any
step: the reset state of such an instance has BadTables recorded, no state of it takes a step, and none is final. That the
run stops one step after the recording, and that BadTables is recorded in the reset state, are the model's choice (log
entry 8). -/
def Obligations.FaultedOrBadTablesNeverStep : Prop :=
  (∀ (s : State) (f : Fault), s.faulted = some f → step s = .fault f ∧ ¬ s.final) ∧
  (∀ s : State, s.params.tables.wf = false → (s.faulted = none → step s = .fault .badTables) ∧ ¬ s.final) ∧
  (∀ p : Params, p.tables.wf = false →
    (State.resetFor p).faulted = some .badTables ∧ step (State.resetFor p) = .fault .badTables) ∧
  (∀ p : Params, p.tables.wf = true → (State.resetFor p).faulted = none)

/-- R52: no step, command or host access changes the parameters. -/
def Obligations.ParametersNeverChange : Prop :=
  (∀ s t : State, step s = .next t → t.params = s.params) ∧
  (∀ (i : Instr) (s t : State), exec i s = .next t → t.params = s.params) ∧
  (∀ (a : HostAction) (s t : State), hostAccess a s = .next t → t.params = s.params)

/-- The invariant of Safety.lean holds in the reset state of every instance. -/
def Obligations.ResetMeetsTheInvariant : Prop :=
  (∀ p : Params, (State.resetFor p).Inv) ∧ State.reset.Inv

/-- Every step keeps the invariant of Safety.lean: the buffers' canonical form and capacity (R44, R45), BUSY and DONE never
both 1 (R33), ERR a legal code (R34, R345), OUT_LEN at most MAX_LEN, `OUT[0..OUT_LEN)` written (R45, R385), and a
bad table set recorded as a fault (R351). -/
def Obligations.StepKeepsTheInvariant : Prop :=
  ∀ s t : State, s.Inv → step s = .next t → t.Inv

/-- R311, R312: every run ends. From a state with no recorded fault and a good table set, the moves of the agenda and then
the pending engine step lead to a final state, or to a fault. That an empty agenda is the engine's turn (log entry 5), and
that a recorded fault stops the step after it (log entry 8), are the model's choice. -/
def Obligations.EveryRunEnds : Prop :=
  ∀ s : State, s.faulted = none → s.params.tables.wf = true →
    (∃ t : State, core.run (s.agenda.length + 2) s = .next t ∧ t.final) ∨
    (∃ f : Fault, core.run (s.agenda.length + 2) s = .fault f)

/-! ### Whole-machine rules -/

/-- R32 to R34: only a command issue, a completion and reset change BUSY, DONE or ERR. -/
def Obligations.StatusChangesOnlyByIssueCompletionReset : Prop :=
  ∀ s t : State, step s = .next t → ¬ StatusKept s t →
    (∃ v rest, s.agenda = .host (.regWrite 0x00#8 v) :: rest ∧ s.busy = false) ∨
    (s.engineNext ∧ s.busy = true) ∨
    (∃ rest, s.agenda = .reset :: rest)

/-- R31, R36 to R41, R44: no command writes CMD, KEY, IV, BLK_IN, LEN, PLEN or a byte of IN: only the host's write of that
register or byte, and reset, change it. -/
def Obligations.OperandsChangeOnlyByHostOrReset : Prop :=
  ∀ s t : State, step s = .next t → (∀ rest, s.agenda ≠ .reset :: rest) →
    (t.cmd ≠ s.cmd → ∃ v rest, s.agenda = .host (.regWrite 0x00#8 v) :: rest) ∧
    (t.key ≠ s.key → ∃ v rest, s.agenda = .host (.regWrite 0x02#8 v) :: rest) ∧
    (t.iv ≠ s.iv → ∃ v rest, s.agenda = .host (.regWrite 0x03#8 v) :: rest) ∧
    (t.blkIn ≠ s.blkIn → ∃ v rest, s.agenda = .host (.regWrite 0x04#8 v) :: rest) ∧
    (t.len ≠ s.len → ∃ v rest, s.agenda = .host (.regWrite 0x06#8 v) :: rest) ∧
    (t.plen ≠ s.plen → ∃ v rest, s.agenda = .host (.regWrite 0x07#8 v) :: rest) ∧
    (∀ a, t.inBuf.read a ≠ s.inBuf.read a → ∃ b rest, s.agenda = .host (.inWrite a b) :: rest)

/-- R39, R42, R43, R45: only XFORM and reset change BLK_OUT; only CTS_ENC, CTS_DEC and reset change OUT_LEN or a byte of
OUT; only DERIVE, CTS_ENC, CTS_DEC, a host write of RK[i] and reset change RK[i]. A command changes them in the engine's own
step alone: no host access does while it runs. -/
def Obligations.ResultsChangeOnlyByTheirCommands : Prop :=
  ∀ s t : State, step s = .next t → (∀ rest, s.agenda ≠ .reset :: rest) →
    (t.blkOut ≠ s.blkOut → s.engineNext ∧ s.busy = true ∧ decode s.cmd = .ok .xform) ∧
    (t.outLen ≠ s.outLen →
      s.engineNext ∧ s.busy = true ∧ (decode s.cmd = .ok .ctsEnc ∨ decode s.cmd = .ok .ctsDec)) ∧
    (∀ a, t.outBuf.read a ≠ s.outBuf.read a →
      s.engineNext ∧ s.busy = true ∧ (decode s.cmd = .ok .ctsEnc ∨ decode s.cmd = .ok .ctsDec)) ∧
    (∀ i : Fin 16, t.rk[i] ≠ s.rk[i] →
      (s.engineNext ∧ s.busy = true ∧
        ((∃ r, decode s.cmd = .ok (.derive r)) ∨ decode s.cmd = .ok .ctsEnc ∨ decode s.cmd = .ok .ctsDec)) ∨
      (s.busy = false ∧ ∃ v rest, s.agenda = .host (.regWrite (BitVec.ofNat 8 (0x10 + i.val)) v) :: rest))

/-- R204, R383: no command reads a hidden register: with any other hidden values it has the very same outcome. -/
def Obligations.CommandsNeverReadHiddenState : Prop :=
  ∀ (i : Instr) (s : State) (h : Hidden), exec i { s with hidden := h } = exec i s

/-- R77, R84, R86: a host read made while a command runs does not disturb it: whatever outcome the engine step has, it has
after the read too, with the same registers, buffers and STATUS. -/
def Obligations.ReadsDoNotDisturbTheCommand : Prop :=
  ∀ (a : HostAction) (s u : State), s.busy = true → a.isRead = true → hostAccess a s = .next u →
    (∀ t, engineStep s = .next t →
      ∃ v, engineStep u = .next v ∧ StatusKept t v ∧ OperandsKept t v ∧ ResultsKept t v) ∧
    (∀ f, engineStep s = .fault f → engineStep u = .fault f)

/-! ### Reset -/

/-- R381, R382: the reset values of every register, and every buffer byte unwritten, for every instance. -/
def Obligations.ResetValues : Prop :=
  ∀ p : Params,
    (State.resetFor p).cmd = 0x00000000#32 ∧ statusWord (State.resetFor p) = 0x00000000#32 ∧
    (State.resetFor p).key = 0x0000000000000000#64 ∧ (State.resetFor p).iv = p.ivReset ∧
    (State.resetFor p).blkIn = 0x0000000000000000#64 ∧ (State.resetFor p).blkOut = 0x0000000000000000#64 ∧
    (State.resetFor p).len = 0x00000000#32 ∧ (State.resetFor p).plen = 0x00000000#32 ∧
    (State.resetFor p).outLen = 0x00000000#32 ∧ (∀ i : Fin 16, (State.resetFor p).rk[i] = 0x000000000000#48) ∧
    (∀ a, (State.resetFor p).inBuf.read a = none) ∧ (∀ a, (State.resetFor p).outBuf.read a = none) ∧
    defaultParams.ivReset = 0x3132333435363738#64

/-- R380: asserting reset puts every register and buffer into the reset state, whatever FCRE was doing; a command in
progress is abandoned. -/
def Obligations.ResetInputRestoresResetState : Prop :=
  ∀ (s : State) (rest : List Event), s.faulted = none → s.params.tables.wf = true → s.agenda = .reset :: rest →
    ∃ t, step s = .next t ∧ StatusKept (State.resetFor s.params) t ∧ OperandsKept (State.resetFor s.params) t ∧
      ResultsKept (State.resetFor s.params) t ∧ t.faulted = none ∧ t.agenda = rest

/-! ### NOP, DERIVE, XFORM: completion, result and frame -/

/-- R310: NOP completes from every state; it writes only STATUS, with ERR = 0. -/
def Obligations.NopWritesOnlyStatus : Prop :=
  ∀ s : State, ∃ t, exec .nop s = .next t ∧ OnlyStatusWritten s t 0#4

/-- R202: DERIVE completes from every state with `RK <- deriveRoundKeys(KEY, REV)` and ERR = 0; it writes nothing else. -/
def Obligations.DeriveWritesSchedule : Prop :=
  ∀ (rev : Bool) (s : State), ∃ t, exec (.derive rev) s = .next t ∧ CompletedWith t 0#4 ∧
    t.rk = deriveRoundKeys s.params.tables s.key rev ∧
    OperandsKept s t ∧ RunKept s t ∧ t.blkOut = s.blkOut ∧ t.outLen = s.outLen ∧
    (∀ a, t.outBuf.read a = s.outBuf.read a)

/-- R203: XFORM completes from every state with `BLK_OUT <- transformBlock(BLK_IN, RK)` and ERR = 0; it writes nothing
else. -/
def Obligations.XformWritesBlkOut : Prop :=
  ∀ s : State, ∃ t, exec .xform s = .next t ∧ CompletedWith t 0#4 ∧
    t.blkOut = transformBlock s.params.tables s.blkIn s.rk ∧
    OperandsKept s t ∧ RunKept s t ∧ t.outLen = s.outLen ∧ t.rk = s.rk ∧
    (∀ a, t.outBuf.read a = s.outBuf.read a)

/-! ### The engine's functions -/

/-- R15: output position j of `permute` is input position T[j], for every table with entries in 1..N. R180 to R185: each of
the six permutation units does so with its own table, with the rules' examples for the default tables (log entry 2). -/
def Obligations.PermuteMovesPositions : Prop :=
  (∀ (n m : Nat) (t : Vector Nat m) (x : BitVec n) (j : Fin m), 1 ≤ t[j] → t[j] ≤ n →
    (permute t x).getMsbD j = x.getLsbD (n - t[j])) ∧
  (∀ (t : Tables) (x : Block) (j : Fin 64), 1 ≤ t.ip[j] → t.ip[j] ≤ 64 →
    (ip t x).getMsbD j = x.getLsbD (64 - t.ip[j])) ∧
  (∀ (t : Tables) (x : Block) (j : Fin 64), 1 ≤ t.fp[j] → t.fp[j] ≤ 64 →
    (fp t x).getMsbD j = x.getLsbD (64 - t.fp[j])) ∧
  (∀ (t : Tables) (r : Half) (j : Fin 48), 1 ≤ t.e[j] → t.e[j] ≤ 32 →
    (expand t r).getMsbD j = r.getLsbD (32 - t.e[j])) ∧
  (∀ (t : Tables) (r : Half) (j : Fin 32), 1 ≤ t.p[j] → t.p[j] ≤ 32 →
    (pperm t r).getMsbD j = r.getLsbD (32 - t.p[j])) ∧
  (∀ (t : Tables) (k : Block) (j : Fin 56), 1 ≤ t.pc1[j] → t.pc1[j] ≤ 64 →
    (pc1 t k).getMsbD j = k.getLsbD (64 - t.pc1[j])) ∧
  (∀ (t : Tables) (cd : BitVec 56) (j : Fin 48), 1 ≤ t.pc2[j] → t.pc2[j] ≤ 56 →
    (pc2 t cd).getMsbD j = cd.getLsbD (56 - t.pc2[j])) ∧
  ip desTables 0x0123456789ABCDEF#64 = 0xCC00CCFFF0AAF0AA#64 ∧ fp desTables 0x0A4CD99543423234#64 = 0x85E813540F0AB405#64 ∧
  expand desTables 0xF0AAF0AA#32 = 0x7A15557A1555#48 ∧ pperm desTables 0x5C82B597#32 = 0x234AA9BB#32 ∧
  pc1 desTables 0x133457799BBCDFF1#64 = 0xF0CCAAF556678F#56 ∧ pc2 desTables 0xE19955FAACCF1E#56 = 0x1B02EFFC7072#48

/-- R143: FP inverts IP, and so IP inverts FP, for every table set that meets R158. -/
def Obligations.FinalPermutationInvertsInitial : Prop :=
  ∀ (t : Tables), t.wf = true → ∀ x : Block, fp t (ip t x) = x ∧ ip t (fp t x) = x

/-- R187: an S-box lane gives the entry at row `2*u[5] + u[0]` and column `u[4:1]`, a number 0..15, for every table set that
meets R158; and the rule's examples for the default tables (lane S1 is number 0 here).
R188: for every table set, lane k of the array reads positions 6k-5 to 6k and gives positions 4k-3 to 4k, S1 the most
significant; and the rule's example. The order of the row, column and lane bits is the spec's own reading ("from general
knowledge, not in source", R149 and R188), as the default tables are (log entry 2). -/
def Obligations.SboxLaneLooksUpRowAndColumn : Prop :=
  (∀ (t : Tables), t.wf = true → ∀ (k : Fin 8) (u : BitVec 6),
    (sbox t k u).toNat =
      ((t.sboxes[k].toList.getD (2 * (u.getLsbD 5).toNat + (u.getLsbD 0).toNat) (Vector.replicate 16 0)).toList.getD
        (8 * (u.getLsbD 4).toNat + 4 * (u.getLsbD 3).toNat + 2 * (u.getLsbD 2).toNat + (u.getLsbD 1).toNat) 0)) ∧
  (∀ (t : Tables) (x : RoundKey) (k : Fin 8),
    (subst t x).extractLsb' (28 - 4 * k.val) 4 = sbox t k (x.extractLsb' (42 - 6 * k.val) 6)) ∧
  subst desTables 0x6117BA866527#48 = 0x5C82B597#32 ∧
  sbox desTables 0 0b011011#6 = 5#4 ∧ sbox desTables 0 0#6 = 14#4 ∧ sbox desTables 0 0b111111#6 = 13#4

/-- R16, R186: `rotl28` is `((x * 2^s) mod 2^28) + (x div 2^(28-s))` for s in 1, 2. R190 to R192: the key halves rotate
cumulatively, each step from the halves of the step before, and round key i is `pc2(C_i ‖ D_i)`. With the rules' examples
for the default tables (log entry 2). -/
def Obligations.RoundKeysRotateCumulatively : Prop :=
  (∀ (x : KeyHalf) (r : Nat), r = 1 ∨ r = 2 →
    (rotl28 x r).toNat = x.toNat * 2 ^ r % 2 ^ 28 + x.toNat / 2 ^ (28 - r)) ∧
  rotl28 0x8000001#28 1 = 0x0000003#28 ∧ rotl28 0xF0CCAAF#28 1 = 0xE19955F#28 ∧
  (∀ (t : Tables) (key : Block), ∃ c d : Nat → KeyHalf,
    c 0 ++ d 0 = pc1 t key ∧
    (∀ i : Fin 16, c (i.val + 1) = rotl28 (c i.val) t.shifts[i] ∧ d (i.val + 1) = rotl28 (d i.val) t.shifts[i] ∧
      (deriveRoundKeys t key false)[i] = pc2 t (c (i.val + 1) ++ d (i.val + 1)))) ∧
  pc1 desTables 0x133457799BBCDFF1#64 = 0xF0CCAAF#28 ++ 0x556678F#28 ∧
  rotl28 0xF0CCAAF#28 desTables.shifts[0] = 0xE19955F#28 ∧ rotl28 0x556678F#28 desTables.shifts[0] = 0xAACCF1E#28 ∧
  desTables.shifts.toList.foldl rotl28 0xF0CCAAF#28 = 0xF0CCAAF#28 ∧
  (deriveRoundKeys desTables 0x133457799BBCDFF1#64 false)[0] = 0x1B02EFFC7072#48 ∧
  (deriveRoundKeys desTables 0x133457799BBCDFF1#64 false)[15] = 0xCB3D8B0E17F5#48

/-- R194: the reversed schedule is the forward one read backwards, whatever the tables hold. -/
def Obligations.ReversedScheduleIsTheReversal : Prop :=
  ∀ (t : Tables) (key : Block) (j : Fin 16),
    (deriveRoundKeys t key true)[j] = (deriveRoundKeys t key false)[15 - j.val]

/-- R195 to R198: the single-block transform by its rounds: the old R becomes the new L, and the halves are swapped once
more before FP. R189: the round function expands, xors the round key, substitutes and permutes, with the rule's example.
R199: Encrypt and Decrypt are the transform with the forward and the reversed schedule; with the example of R197. The
examples are for the default tables (log entry 2). -/
def Obligations.TransformIsSixteenFeistelRounds : Prop :=
  (∀ (t : Tables) (b : Block) (ks : Vector RoundKey 16), ∃ l r : Nat → Half,
    l 0 ++ r 0 = ip t b ∧
    (∀ i : Fin 16, l (i.val + 1) = r i.val ∧ r (i.val + 1) = l i.val ^^^ roundFn t (r i.val) ks[i]) ∧
    transformBlock t b ks = fp t (r 16 ++ l 16)) ∧
  (∀ (t : Tables) (r : Half) (k : RoundKey), roundFn t r k = pperm t (subst t (expand t r ^^^ k))) ∧
  expand desTables 0xF0AAF0AA#32 ^^^ 0x1B02EFFC7072#48 = 0x6117BA866527#48 ∧
  subst desTables 0x6117BA866527#48 = 0x5C82B597#32 ∧
  roundFn desTables 0xF0AAF0AA#32 0x1B02EFFC7072#48 = 0x234AA9BB#32 ∧
  (∀ (t : Tables) (key b : Block),
    encryptBlock t key b = transformBlock t b (deriveRoundKeys t key false) ∧
    decryptBlock t key b = transformBlock t b (deriveRoundKeys t key true)) ∧
  encryptBlock desTables 0x133457799BBCDFF1#64 0x0123456789ABCDEF#64 = 0x85E813540F0AB405#64

/-- R200: encryption and decryption under one key invert each other, for every table set that meets R158. -/
def Obligations.EngineInvolution : Prop :=
  ∀ (t : Tables), t.wf = true → ∀ key b : Block,
    decryptBlock t key (encryptBlock t key b) = b ∧ encryptBlock t key (decryptBlock t key b) = b

/-- R146, R202 (a): with the default tables the low bit of each key byte does not affect the schedule. -/
def Obligations.ParityBitsDoNotMatter : Prop :=
  ∀ (key1 key2 : Block) (rev : Bool), key1 &&& 0xFEFEFEFEFEFEFEFE#64 = key2 &&& 0xFEFEFEFEFEFEFEFE#64 →
    deriveRoundKeys desTables key1 rev = deriveRoundKeys desTables key2 rev

/-- R202 (b): a key with C_0 and D_0 each all-zero or all-one has equal round keys; then REV has no effect and the
transform is its own inverse. -/
def Obligations.WeakKeysGiveEqualRoundKeys : Prop :=
  ∀ (t : Tables) (key : Block), t.wf = true →
    ((pc1 t key).extractLsb' 28 28 = 0 ∨ (pc1 t key).extractLsb' 28 28 = 0xFFFFFFF#28) →
    ((pc1 t key).extractLsb' 0 28 = 0 ∨ (pc1 t key).extractLsb' 0 28 = 0xFFFFFFF#28) →
      (∀ i j : Fin 16, (deriveRoundKeys t key false)[i] = (deriveRoundKeys t key false)[j]) ∧
      deriveRoundKeys t key true = deriveRoundKeys t key false ∧
      (∀ b, encryptBlock t key (encryptBlock t key b) = b)

/-- R203 (d): complementation with the default tables. -/
def Obligations.ComplementationProperty : Prop :=
  ∀ key b : Block, encryptBlock desTables (~~~key) (~~~b) = ~~~(encryptBlock desTables key b)

/-! ### Mode commands: completion, result and frame -/

/-- R251, R252, R266: CTS_ENC completes from every state whose LEN is in range and whose input is written. It writes
OUT_LEN, `OUT[0..OUT_LEN)` with the ciphertext, and RK with the forward schedule, and leaves the rest unchanged. -/
def Obligations.CtsEncWritesCiphertext : Prop :=
  ∀ s : State, s.len.toNat ≤ s.params.maxLen.val → InWritten s s.len.toNat →
    ∃ (t : State) (msg : List Byte), exec .ctsEnc s = .next t ∧ CompletedWith t 0#4 ∧
      msg.length = s.len.toNat ∧ (∀ a, a < s.len.toNat → s.inBuf.read a = msg[a]?) ∧
      t.outLen.toNat = (if s.len.toNat = 0 then 0 else if s.len.toNat ≤ 7 then 8 else s.len.toNat) ∧
      (cbcCtsEncrypt s.params.tables s.key s.iv msg).length = t.outLen.toNat ∧
      (∀ a, a < t.outLen.toNat → t.outBuf.read a = (cbcCtsEncrypt s.params.tables s.key s.iv msg)[a]?) ∧
      (∀ a, t.outLen.toNat ≤ a → t.outBuf.read a = s.outBuf.read a) ∧
      t.rk = deriveRoundKeys s.params.tables s.key false ∧
      OperandsKept s t ∧ RunKept s t ∧ t.blkOut = s.blkOut

/-- R262, R254, R266: CTS_DEC completes from every state whose lengths are in range and accepted and whose input is
written. It writes OUT_LEN = PLEN, `OUT[0..PLEN)` with the plaintext, and RK with the reversed schedule, and leaves the rest
unchanged. -/
def Obligations.CtsDecWritesPlaintext : Prop :=
  ∀ s : State, s.len.toNat ≤ s.params.maxLen.val → s.plen.toNat ≤ s.params.maxLen.val →
    AcceptedPair s.len.toNat s.plen.toNat → InWritten s s.len.toNat →
    ∃ (t : State) (msg : List Byte), exec .ctsDec s = .next t ∧ CompletedWith t 0#4 ∧
      msg.length = s.len.toNat ∧ (∀ a, a < s.len.toNat → s.inBuf.read a = msg[a]?) ∧
      t.outLen = s.plen ∧
      (cbcCtsDecrypt s.params.tables s.key s.iv msg s.plen.toNat).length = s.plen.toNat ∧
      (∀ a, a < s.plen.toNat → t.outBuf.read a = (cbcCtsDecrypt s.params.tables s.key s.iv msg s.plen.toNat)[a]?) ∧
      (∀ a, s.plen.toNat ≤ a → t.outBuf.read a = s.outBuf.read a) ∧
      t.rk = deriveRoundKeys s.params.tables s.key true ∧
      OperandsKept s t ∧ RunKept s t ∧ t.blkOut = s.blkOut

/-- R343: LEN_RANGE ends CTS_ENC when LEN > MAX_LEN, and CTS_DEC when LEN > MAX_LEN or PLEN > MAX_LEN, with nothing but
STATUS written. -/
def Obligations.LenRangeWritesOnlyStatus : Prop :=
  ∀ s : State,
    (s.params.maxLen.val < s.len.toNat → ∃ t, exec .ctsEnc s = .next t ∧ OnlyStatusWritten s t 2#4) ∧
    (s.params.maxLen.val < s.len.toNat ∨ s.params.maxLen.val < s.plen.toNat →
      ∃ t, exec .ctsDec s = .next t ∧ OnlyStatusWritten s t 2#4)

/-- R344, R254: DEC_LENGTH ends CTS_DEC for every pair in range that is not accepted, with nothing but STATUS written. -/
def Obligations.DecLengthWritesOnlyStatus : Prop :=
  ∀ s : State, s.len.toNat ≤ s.params.maxLen.val → s.plen.toNat ≤ s.params.maxLen.val →
    ¬ AcceptedPair s.len.toNat s.plen.toNat → ∃ t, exec .ctsDec s = .next t ∧ OnlyStatusWritten s t 3#4

/-- R91: a mode command that passes its length checks faults when a byte of `IN[0..LEN)` is unwritten. -/
def Obligations.UnwrittenInputFaults : Prop :=
  ∀ s : State, s.len.toNat ≤ s.params.maxLen.val → (∃ a, a < s.len.toNat ∧ s.inBuf.read a = none) →
    exec .ctsEnc s = .fault .unwrittenInput ∧
    (s.plen.toNat ≤ s.params.maxLen.val → AcceptedPair s.len.toNat s.plen.toNat →
      exec .ctsDec s = .fault .unwrittenInput)

/-- R341, R347: the error code of every completion, with its priority: ILLEGAL_CMD, then LEN_RANGE, then DEC_LENGTH, else
OK. -/
def Obligations.ErrorCodeAndPriority : Prop :=
  ∀ s t : State, engineStep s = .next t →
    CompletedWith t t.err ∧
    (∀ e, decode s.cmd = .error e → t.err = 1#4) ∧
    (decode s.cmd = .ok .nop ∨ (∃ r, decode s.cmd = .ok (.derive r)) ∨ decode s.cmd = .ok .xform → t.err = 0#4) ∧
    (decode s.cmd = .ok .ctsEnc →
      (s.params.maxLen.val < s.len.toNat → t.err = 2#4) ∧
      (s.len.toNat ≤ s.params.maxLen.val → t.err = 0#4)) ∧
    (decode s.cmd = .ok .ctsDec →
      (s.params.maxLen.val < s.len.toNat ∨ s.params.maxLen.val < s.plen.toNat → t.err = 2#4) ∧
      (s.len.toNat ≤ s.params.maxLen.val → s.plen.toNat ≤ s.params.maxLen.val →
        (¬ AcceptedPair s.len.toNat s.plen.toNat → t.err = 3#4) ∧
        (AcceptedPair s.len.toNat s.plen.toNat → t.err = 0#4)))

/-- R348, R349: a command that raises an error writes only STATUS. -/
def Obligations.ErrorsArePrecise : Prop :=
  ∀ s t : State, engineStep s = .next t → t.err ≠ 0#4 → OnlyStatusWritten s t t.err

/-- R266, R90: a mode command never reads RK. With any other RK it has the same outcome, except that an error leaves the
other RK. -/
def Obligations.ModeCommandsNeverReadRk : Prop :=
  ∀ (i : Instr) (s : State) (r : Vector RoundKey 16), i = .ctsEnc ∨ i = .ctsDec →
    (∀ t, exec i s = .next t → exec i { s with rk := r } = .next { t with rk := if t.err = 0#4 then t.rk else r }) ∧
    (∀ f, exec i s = .fault f → exec i { s with rk := r } = .fault f)

/-! ### What the mode commands compute -/

/-- R246: whole blocks are encrypted in CBC: each ciphertext block is the encryption of the plaintext block xored with the
one before it, the first with the IV. -/
def Obligations.EncryptWholeBlocksIsCbc : Prop :=
  ∀ (t : Tables) (key iv : Block) (msg : List Byte) (m : Nat), msg.length = 8 * m →
    ∃ c : Nat → Block, c 0 = iv ∧ (cbcCtsEncrypt t key iv msg).length = 8 * m ∧
      ∀ j, j < m →
        c (j + 1) = encryptBlock t key (pack8 (slice msg (8 * j) 8) ^^^ c j) ∧
        slice (cbcCtsEncrypt t key iv msg) (8 * j) 8 = unpack8 (c (j + 1))

/-- R247: an input of 1 to 7 bytes is zero-padded to one block and encrypted against the IV; the output is that block. -/
def Obligations.EncryptShortInputPadsWithZeros : Prop :=
  ∀ (t : Tables) (key iv : Block) (msg : List Byte), 1 ≤ msg.length → msg.length ≤ 7 →
    cbcCtsEncrypt t key iv msg =
      unpack8 (encryptBlock t key (pack8 (msg ++ List.replicate (8 - msg.length) 0x00#8) ^^^ iv))

/-- R248 to R250: the general case: CBC up to C(n-1), then C(n) from the zero-padded tail; the output is the leading blocks,
the first d bytes of C(n-1), and all of C(n). -/
def Obligations.EncryptGeneralCaseStealsCiphertext : Prop :=
  ∀ (t : Tables) (key iv : Block) (msg : List Byte) (m d : Nat), msg.length = 8 * m + d → 1 ≤ m → 1 ≤ d → d ≤ 7 →
    ∃ (c : Nat → Block) (cn : Block), c 0 = iv ∧ (cbcCtsEncrypt t key iv msg).length = 8 * m + d ∧
      (∀ j, j < m → c (j + 1) = encryptBlock t key (pack8 (slice msg (8 * j) 8) ^^^ c j)) ∧
      cn = encryptBlock t key (pack8 (slice msg (8 * m) d ++ List.replicate (8 - d) 0x00#8) ^^^ c m) ∧
      (∀ j, j < m - 1 → slice (cbcCtsEncrypt t key iv msg) (8 * j) 8 = unpack8 (c (j + 1))) ∧
      slice (cbcCtsEncrypt t key iv msg) (8 * m - 8) d = (unpack8 (c m)).take d ∧
      slice (cbcCtsEncrypt t key iv msg) (8 * m - 8 + d) 8 = unpack8 cn

/-- R256: whole blocks are decrypted in CBC. -/
def Obligations.DecryptWholeBlocksIsCbc : Prop :=
  ∀ (t : Tables) (key iv : Block) (msg : List Byte) (m : Nat), msg.length = 8 * m →
    (cbcCtsDecrypt t key iv msg (8 * m)).length = 8 * m ∧
    ∀ j, j < m →
      slice (cbcCtsDecrypt t key iv msg (8 * m)) (8 * j) 8 =
        unpack8 (decryptBlock t key (pack8 (slice msg (8 * j) 8)) ^^^
          (if j = 0 then iv else pack8 (slice msg (8 * (j - 1)) 8)))

/-- R257: the short case decrypts the sole block, xors it with the IV, and cuts it to PLEN bytes. -/
def Obligations.DecryptShortCaseTruncates : Prop :=
  ∀ (t : Tables) (key iv : Block) (msg : List Byte) (p : Nat), msg.length = 8 → 1 ≤ p → p ≤ 7 →
    cbcCtsDecrypt t key iv msg p = (unpack8 (decryptBlock t key (pack8 msg) ^^^ iv)).take p

/-- R258 to R261: the general case of CTS_DEC: the leading blocks in CBC; C(n-1) rebuilt from its emitted d bytes and the
tail of Decrypt(C(n)); then P(n-1) and the d bytes of P(n). -/
def Obligations.DecryptGeneralCaseRebuildsStolenBytes : Prop :=
  ∀ (t : Tables) (key iv : Block) (msg : List Byte) (k d : Nat), msg.length = 8 * k + (8 + d) → 1 ≤ d → d ≤ 7 →
    ∃ z cn1 : Block, z = decryptBlock t key (pack8 (slice msg (8 * k + d) 8)) ∧
      cn1 = pack8 (slice msg (8 * k) d ++ (unpack8 z).drop d) ∧
      (cbcCtsDecrypt t key iv msg msg.length).length = msg.length ∧
      (∀ j, j < k → slice (cbcCtsDecrypt t key iv msg msg.length) (8 * j) 8 =
        unpack8 (decryptBlock t key (pack8 (slice msg (8 * j) 8)) ^^^
          (if j = 0 then iv else pack8 (slice msg (8 * (j - 1)) 8)))) ∧
      slice (cbcCtsDecrypt t key iv msg msg.length) (8 * k) 8 =
        unpack8 (decryptBlock t key cn1 ^^^ (if k = 0 then iv else pack8 (slice msg (8 * (k - 1)) 8))) ∧
      slice (cbcCtsDecrypt t key iv msg msg.length) (8 * k + 8) d = (unpack8 (z ^^^ cn1)).take d

/-- R263: the round trip. For every key, IV and plaintext of at most MAX_LEN bytes, CTS_ENC and then CTS_DEC on its output,
with the same key and IV and PLEN the plaintext's length, give the plaintext back. -/
def Obligations.ModeRoundTrip : Prop :=
  ∀ (s : State) (p : List Byte), s.params.tables.wf = true → p.length ≤ s.params.maxLen.val →
    s.len.toNat = p.length → (∀ a, a < p.length → s.inBuf.read a = p[a]?) →
    ∃ t, exec .ctsEnc s = .next t ∧ CompletedWith t 0#4 ∧
      ∀ u : State, u.params = s.params → u.key = s.key → u.iv = s.iv → u.len = t.outLen → u.plen.toNat = p.length →
        (∀ a, a < t.outLen.toNat → u.inBuf.read a = t.outBuf.read a) →
        ∃ v, exec .ctsDec u = .next v ∧ CompletedWith v 0#4 ∧ v.outLen.toNat = p.length ∧
          (∀ a, a < p.length → v.outBuf.read a = p[a]?)

/-- R264: a short ciphertext decrypted with LEN = PLEN = 8 gives the zero-padded block. -/
def Obligations.ShortInputAsymmetry : Prop :=
  ∀ (t : Tables) (key iv : Block) (msg : List Byte), t.wf = true → 1 ≤ msg.length → msg.length ≤ 7 →
    cbcCtsDecrypt t key iv (cbcCtsEncrypt t key iv msg) 8 = msg ++ List.replicate (8 - msg.length) 0x00#8

/-! ### The host interface -/

/-- R32 to R35: the layout of STATUS. -/
def Obligations.StatusLayout : Prop :=
  ∀ (s : State) (k : Nat),
    (statusWord s).getLsbD k =
      if k = 0 then s.busy
      else if k = 1 then s.done
      else if 4 ≤ k ∧ k ≤ 7 then s.err.getLsbD (k - 4)
      else false

/-- R301: the values of register reads while BUSY = 0, number by number; reserved numbers read 0 (R81). -/
def Obligations.RegReadValues : Prop :=
  ∀ (s : State) (n : BitVec 8), s.busy = false →
    ∃ v : Block, hostAccess (.regRead n) s = .next { s with reply := some v } ∧
      (n = 0x00#8 → v = s.cmd.setWidth 64) ∧
      (n = 0x01#8 → v.toNat = 2 * s.done.toNat + 16 * s.err.toNat) ∧
      (n = 0x02#8 → v = s.key) ∧ (n = 0x03#8 → v = s.iv) ∧ (n = 0x04#8 → v = s.blkIn) ∧ (n = 0x05#8 → v = s.blkOut) ∧
      (n = 0x06#8 → v = s.len.setWidth 64) ∧ (n = 0x07#8 → v = s.plen.setWidth 64) ∧
      (n = 0x08#8 → v = s.outLen.setWidth 64) ∧
      (∀ i : Fin 16, n.toNat = 0x10 + i.val → v = (s.rk[i]).setWidth 64) ∧
      ((0x09 ≤ n.toNat ∧ n.toNat ≤ 0x0F) ∨ 0x20 ≤ n.toNat → v = 0)

/-- R309: register reads while BUSY = 1. STATUS and the operand registers read true; a result register reads a value that
does not depend on what the result registers hold. -/
def Obligations.RegReadWhileBusy : Prop :=
  ∀ (s : State) (n : BitVec 8), s.busy = true →
    ∃ (v : Block) (k : Nat), hostAccess (.regRead n) s = .next { s with reply := some v, draws := s.draws + k } ∧
      (n = 0x00#8 → v = s.cmd.setWidth 64) ∧
      (n = 0x01#8 → v.toNat = 1 + 2 * s.done.toNat + 16 * s.err.toNat) ∧
      (n = 0x02#8 → v = s.key) ∧ (n = 0x03#8 → v = s.iv) ∧ (n = 0x04#8 → v = s.blkIn) ∧
      (n = 0x06#8 → v = s.len.setWidth 64) ∧ (n = 0x07#8 → v = s.plen.setWidth 64) ∧
      ((0x09 ≤ n.toNat ∧ n.toNat ≤ 0x0F) ∨ 0x20 ≤ n.toNat → v = 0) ∧
      (∀ (b : Block) (l : Word) (r : Vector RoundKey 16), n = 0x05#8 ∨ n = 0x08#8 ∨ (0x10 ≤ n.toNat ∧ n.toNat ≤ 0x1F) →
        hostAccess (.regRead n) { s with blkOut := b, outLen := l, rk := r } =
          .next { s with blkOut := b, outLen := l, rk := r, reply := some v, draws := s.draws + k })

/-- R302: a register write while BUSY = 0 stores the low bits that fit, in that register alone; a write to a read-only or
reserved number changes nothing. -/
def Obligations.RegWriteStoresLowBits : Prop :=
  ∀ (s : State) (v : Block), s.busy = false →
    hostAccess (.regWrite 0x02#8 v) s = .next { s with reply := none, key := v } ∧
    hostAccess (.regWrite 0x03#8 v) s = .next { s with reply := none, iv := v } ∧
    hostAccess (.regWrite 0x04#8 v) s = .next { s with reply := none, blkIn := v } ∧
    hostAccess (.regWrite 0x06#8 v) s = .next { s with reply := none, len := v.extractLsb' 0 32 } ∧
    hostAccess (.regWrite 0x07#8 v) s = .next { s with reply := none, plen := v.extractLsb' 0 32 } ∧
    (∀ i : Fin 16, ∃ r : Vector RoundKey 16,
      hostAccess (.regWrite (BitVec.ofNat 8 (0x10 + i.val)) v) s = .next { s with reply := none, rk := r } ∧
      r[i] = v.extractLsb' 0 48 ∧ ∀ j : Fin 16, j ≠ i → r[j] = s.rk[j]) ∧
    (∀ n : BitVec 8, n = 0x01#8 ∨ n = 0x05#8 ∨ n = 0x08#8 ∨ (0x09 ≤ n.toNat ∧ n.toNat ≤ 0x0F) ∨ 0x20 ≤ n.toNat →
      hostAccess (.regWrite n v) s = .next { s with reply := none })

/-- R79, R81: while BUSY = 0 a write to STATUS, BLK_OUT, OUT_LEN or a reserved number is ignored (while BUSY = 1 every write
is a fault, R305); a reserved number reads 0 at any time. -/
def Obligations.ReadOnlyAndReservedWritesIgnored : Prop :=
  ∀ (s : State) (n : BitVec 8) (v : Block),
    (s.busy = false → n = 0x01#8 ∨ n = 0x05#8 ∨ n = 0x08#8 →
      hostAccess (.regWrite n v) s = .next { s with reply := none }) ∧
    ((0x09 ≤ n.toNat ∧ n.toNat ≤ 0x0F) ∨ 0x20 ≤ n.toNat →
      (s.busy = false → hostAccess (.regWrite n v) s = .next { s with reply := none }) ∧
      hostAccess (.regRead n) s = .next { s with reply := some 0 })

/-- R303: a write to CMD while BUSY = 0 issues a command: CMD, BUSY, DONE and ERR are written and nothing else; every word
issues, an illegal one to complete with ILLEGAL_CMD, and the upper half of the bus data is dropped. -/
def Obligations.CmdWriteIssuesCommand : Prop :=
  ∀ (s : State) (v : Block), s.busy = false →
    ∃ t, t = { s with reply := none, cmd := v.extractLsb' 0 32, busy := true, done := false, err := 0 } ∧
      hostAccess (.regWrite 0x00#8 v) s = .next t ∧
      ((∃ e, decode (v.extractLsb' 0 32) = .error e) → ∃ u, engineStep t = .next u ∧ CompletedWith u 1#4)

/-- R305: every RegWrite and InWrite while BUSY = 1 is a fault. -/
def Obligations.WriteWhileBusyFaults : Prop :=
  ∀ s : State, s.busy = true →
    (∀ n v, hostAccess (.regWrite n v) s = .fault .hostWriteWhileBusy) ∧
    (∀ a b, hostAccess (.inWrite a b) s = .fault .hostWriteWhileBusy)

/-- R306, R80: InWrite while BUSY = 0 writes that byte of IN and nothing else; an index of MAX_LEN or above is ignored. -/
def Obligations.InWriteWritesOneByte : Prop :=
  ∀ (s : State) (a : Nat) (b : Byte), s.busy = false →
    (a < s.params.maxLen.val → ∃ m : Memory, hostAccess (.inWrite a b) s = .next { s with reply := none, inBuf := m } ∧
      m.read a = some b ∧ ∀ x, x ≠ a → m.read x = s.inBuf.read x) ∧
    (s.params.maxLen.val ≤ a → hostAccess (.inWrite a b) s = .next { s with reply := none })

/-- R307: InRead: the byte, zero-extended; 0 at an index of MAX_LEN or above; a fault where it is unwritten; the same while
BUSY = 1. -/
def Obligations.InReadReturnsByte : Prop :=
  ∀ (s : State) (a : Nat),
    (a < s.params.maxLen.val → ∀ b, s.inBuf.read a = some b →
      hostAccess (.inRead a) s = .next { s with reply := some (0#56 ++ b) }) ∧
    (a < s.params.maxLen.val → s.inBuf.read a = none → hostAccess (.inRead a) s = .fault .unwrittenRead) ∧
    (s.params.maxLen.val ≤ a → hostAccess (.inRead a) s = .next { s with reply := some 0 })

/-- R308: OutRead: 0 at an index of MAX_LEN or above; while BUSY = 1 some byte that does not depend on OUT; else the byte,
or a fault where it is unwritten. -/
def Obligations.OutReadReturnsByte : Prop :=
  ∀ (s : State) (a : Nat),
    (s.params.maxLen.val ≤ a → hostAccess (.outRead a) s = .next { s with reply := some 0 }) ∧
    (a < s.params.maxLen.val → s.busy = true → ∃ b : Byte, ∀ m : Memory,
      hostAccess (.outRead a) { s with outBuf := m } =
        .next { s with outBuf := m, reply := some (0#56 ++ b), draws := s.draws + 1 }) ∧
    (a < s.params.maxLen.val → s.busy = false → ∀ b, s.outBuf.read a = some b →
      hostAccess (.outRead a) s = .next { s with reply := some (0#56 ++ b) }) ∧
    (a < s.params.maxLen.val → s.busy = false → s.outBuf.read a = none →
      hostAccess (.outRead a) s = .fault .unwrittenRead)

/-- R78: no read has a side effect; of the writes only one to CMD changes STATUS or CMD; and every access but a write to CMD
is idempotent: made again, it changes no register, buffer or STATUS. -/
def Obligations.OnlyCmdWriteHasSideEffect : Prop :=
  ∀ (a : HostAction) (s t : State), hostAccess a s = .next t →
    (a.isRead = true → StatusKept s t ∧ OperandsKept s t ∧ ResultsKept s t) ∧
    ((∀ v, a ≠ .regWrite 0x00#8 v) → StatusKept s t ∧ t.cmd = s.cmd ∧
      ∃ u, hostAccess a t = .next u ∧ StatusKept t u ∧ OperandsKept t u ∧ ResultsKept t u)

/-! ### Byte order -/

/-- R14, R72, R73: the packing of 8 bytes into 64 bits is big-endian. Byte k of `unpack8 v` is `v[63-8k:56-8k]`, so byte 0 is
the most significant and its top bit is table position 1; `pack8` and `unpack8` invert each other; and R109's literals. The
path statements of the mode commands (`EncryptWholeBlocksIsCbc` and those after it) read and write blocks through these
two. -/
def Obligations.BytesPackBigEndian : Prop :=
  (∀ v : Block, (unpack8 v).length = 8 ∧
    ∀ k, k < 8 → (unpack8 v)[k]? = some (v.extractLsb' (56 - 8 * k) 8)) ∧
  (∀ (v : Block) (k i : Nat), k < 8 → i < 8 → ((unpack8 v).getD k 0).getMsbD i = v.getMsbD (8 * k + i)) ∧
  (∀ v : Block, pack8 (unpack8 v) = v) ∧
  (∀ s : List Byte, s.length = 8 → unpack8 (pack8 s) = s) ∧
  pack8 [0x6D#8, 0x79#8, 0x73#8, 0x65#8, 0x63#8, 0x72#8, 0x65#8, 0x74#8] = 0x6D79736563726574#64 ∧
  pack8 [0x31#8, 0x32#8, 0x33#8, 0x34#8, 0x35#8, 0x36#8, 0x37#8, 0x38#8] = 0x3132333435363738#64
end

