-- ==== Sys2Proof/Laws/State.lean ====
section
/-! SUPPORT. What each named update of State leaves in each field, by rfl, for simp. -/

namespace Sys2Proof.Machine

/-! Command issue (R303). -/

@[simp] theorem State.issue_params (s : State) (w : Word) : (s.issue w).params = s.params := rfl
@[simp] theorem State.issue_cmd (s : State) (w : Word) : (s.issue w).cmd = w := rfl
@[simp] theorem State.issue_busy (s : State) (w : Word) : (s.issue w).busy = true := rfl
@[simp] theorem State.issue_done (s : State) (w : Word) : (s.issue w).done = false := rfl
@[simp] theorem State.issue_err (s : State) (w : Word) : (s.issue w).err = 0 := rfl
@[simp] theorem State.issue_key (s : State) (w : Word) : (s.issue w).key = s.key := rfl
@[simp] theorem State.issue_iv (s : State) (w : Word) : (s.issue w).iv = s.iv := rfl
@[simp] theorem State.issue_blkIn (s : State) (w : Word) : (s.issue w).blkIn = s.blkIn := rfl
@[simp] theorem State.issue_blkOut (s : State) (w : Word) : (s.issue w).blkOut = s.blkOut := rfl
@[simp] theorem State.issue_len (s : State) (w : Word) : (s.issue w).len = s.len := rfl
@[simp] theorem State.issue_plen (s : State) (w : Word) : (s.issue w).plen = s.plen := rfl
@[simp] theorem State.issue_outLen (s : State) (w : Word) : (s.issue w).outLen = s.outLen := rfl
@[simp] theorem State.issue_rk (s : State) (w : Word) : (s.issue w).rk = s.rk := rfl
@[simp] theorem State.issue_inBuf (s : State) (w : Word) : (s.issue w).inBuf = s.inBuf := rfl
@[simp] theorem State.issue_outBuf (s : State) (w : Word) : (s.issue w).outBuf = s.outBuf := rfl
@[simp] theorem State.issue_hidden (s : State) (w : Word) : (s.issue w).hidden = s.hidden := rfl
@[simp] theorem State.issue_faulted (s : State) (w : Word) : (s.issue w).faulted = s.faulted := rfl
@[simp] theorem State.issue_reply (s : State) (w : Word) : (s.issue w).reply = s.reply := rfl
@[simp] theorem State.issue_draws (s : State) (w : Word) : (s.issue w).draws = s.draws := rfl
@[simp] theorem State.issue_agenda (s : State) (w : Word) : (s.issue w).agenda = s.agenda := rfl

/-! Completion (R304). -/

@[simp] theorem State.complete_params (s : State) (code : ErrCode) : (s.complete code).params = s.params := rfl
@[simp] theorem State.complete_cmd (s : State) (code : ErrCode) : (s.complete code).cmd = s.cmd := rfl
@[simp] theorem State.complete_busy (s : State) (code : ErrCode) : (s.complete code).busy = false := rfl
@[simp] theorem State.complete_done (s : State) (code : ErrCode) : (s.complete code).done = true := rfl
@[simp] theorem State.complete_err (s : State) (code : ErrCode) : (s.complete code).err = code.bits := rfl
@[simp] theorem State.complete_key (s : State) (code : ErrCode) : (s.complete code).key = s.key := rfl
@[simp] theorem State.complete_iv (s : State) (code : ErrCode) : (s.complete code).iv = s.iv := rfl
@[simp] theorem State.complete_blkIn (s : State) (code : ErrCode) : (s.complete code).blkIn = s.blkIn := rfl
@[simp] theorem State.complete_blkOut (s : State) (code : ErrCode) : (s.complete code).blkOut = s.blkOut := rfl
@[simp] theorem State.complete_len (s : State) (code : ErrCode) : (s.complete code).len = s.len := rfl
@[simp] theorem State.complete_plen (s : State) (code : ErrCode) : (s.complete code).plen = s.plen := rfl
@[simp] theorem State.complete_outLen (s : State) (code : ErrCode) : (s.complete code).outLen = s.outLen := rfl
@[simp] theorem State.complete_rk (s : State) (code : ErrCode) : (s.complete code).rk = s.rk := rfl
@[simp] theorem State.complete_inBuf (s : State) (code : ErrCode) : (s.complete code).inBuf = s.inBuf := rfl
@[simp] theorem State.complete_outBuf (s : State) (code : ErrCode) : (s.complete code).outBuf = s.outBuf := rfl
@[simp] theorem State.complete_hidden (s : State) (code : ErrCode) : (s.complete code).hidden = Hidden.draw s.draws := rfl
@[simp] theorem State.complete_faulted (s : State) (code : ErrCode) : (s.complete code).faulted = s.faulted := rfl
@[simp] theorem State.complete_reply (s : State) (code : ErrCode) : (s.complete code).reply = s.reply := rfl
@[simp] theorem State.complete_draws (s : State) (code : ErrCode) : (s.complete code).draws = s.draws + hiddenDraws := rfl
@[simp] theorem State.complete_agenda (s : State) (code : ErrCode) : (s.complete code).agenda = s.agenda := rfl

/-! A read's value on the bus (R301, R307, R308). -/

@[simp] theorem State.respond_params (s : State) (v : Block) : (s.respond v).params = s.params := rfl
@[simp] theorem State.respond_cmd (s : State) (v : Block) : (s.respond v).cmd = s.cmd := rfl
@[simp] theorem State.respond_busy (s : State) (v : Block) : (s.respond v).busy = s.busy := rfl
@[simp] theorem State.respond_done (s : State) (v : Block) : (s.respond v).done = s.done := rfl
@[simp] theorem State.respond_err (s : State) (v : Block) : (s.respond v).err = s.err := rfl
@[simp] theorem State.respond_key (s : State) (v : Block) : (s.respond v).key = s.key := rfl
@[simp] theorem State.respond_iv (s : State) (v : Block) : (s.respond v).iv = s.iv := rfl
@[simp] theorem State.respond_blkIn (s : State) (v : Block) : (s.respond v).blkIn = s.blkIn := rfl
@[simp] theorem State.respond_blkOut (s : State) (v : Block) : (s.respond v).blkOut = s.blkOut := rfl
@[simp] theorem State.respond_len (s : State) (v : Block) : (s.respond v).len = s.len := rfl
@[simp] theorem State.respond_plen (s : State) (v : Block) : (s.respond v).plen = s.plen := rfl
@[simp] theorem State.respond_outLen (s : State) (v : Block) : (s.respond v).outLen = s.outLen := rfl
@[simp] theorem State.respond_rk (s : State) (v : Block) : (s.respond v).rk = s.rk := rfl
@[simp] theorem State.respond_inBuf (s : State) (v : Block) : (s.respond v).inBuf = s.inBuf := rfl
@[simp] theorem State.respond_outBuf (s : State) (v : Block) : (s.respond v).outBuf = s.outBuf := rfl
@[simp] theorem State.respond_hidden (s : State) (v : Block) : (s.respond v).hidden = s.hidden := rfl
@[simp] theorem State.respond_faulted (s : State) (v : Block) : (s.respond v).faulted = s.faulted := rfl
@[simp] theorem State.respond_reply (s : State) (v : Block) : (s.respond v).reply = some v := rfl
@[simp] theorem State.respond_draws (s : State) (v : Block) : (s.respond v).draws = s.draws := rfl
@[simp] theorem State.respond_agenda (s : State) (v : Block) : (s.respond v).agenda = s.agenda := rfl

/-! Any value on the bus (R309). -/

@[simp] theorem State.respondFree_params (s : State) : s.respondFree.params = s.params := rfl
@[simp] theorem State.respondFree_cmd (s : State) : s.respondFree.cmd = s.cmd := rfl
@[simp] theorem State.respondFree_busy (s : State) : s.respondFree.busy = s.busy := rfl
@[simp] theorem State.respondFree_done (s : State) : s.respondFree.done = s.done := rfl
@[simp] theorem State.respondFree_err (s : State) : s.respondFree.err = s.err := rfl
@[simp] theorem State.respondFree_key (s : State) : s.respondFree.key = s.key := rfl
@[simp] theorem State.respondFree_iv (s : State) : s.respondFree.iv = s.iv := rfl
@[simp] theorem State.respondFree_blkIn (s : State) : s.respondFree.blkIn = s.blkIn := rfl
@[simp] theorem State.respondFree_blkOut (s : State) : s.respondFree.blkOut = s.blkOut := rfl
@[simp] theorem State.respondFree_len (s : State) : s.respondFree.len = s.len := rfl
@[simp] theorem State.respondFree_plen (s : State) : s.respondFree.plen = s.plen := rfl
@[simp] theorem State.respondFree_outLen (s : State) : s.respondFree.outLen = s.outLen := rfl
@[simp] theorem State.respondFree_rk (s : State) : s.respondFree.rk = s.rk := rfl
@[simp] theorem State.respondFree_inBuf (s : State) : s.respondFree.inBuf = s.inBuf := rfl
@[simp] theorem State.respondFree_outBuf (s : State) : s.respondFree.outBuf = s.outBuf := rfl
@[simp] theorem State.respondFree_hidden (s : State) : s.respondFree.hidden = s.hidden := rfl
@[simp] theorem State.respondFree_faulted (s : State) : s.respondFree.faulted = s.faulted := rfl
@[simp] theorem State.respondFree_reply (s : State) : s.respondFree.reply = some (Config.freeValue s.draws) := rfl
@[simp] theorem State.respondFree_draws (s : State) : s.respondFree.draws = s.draws + 1 := rfl
@[simp] theorem State.respondFree_agenda (s : State) : s.respondFree.agenda = s.agenda := rfl

/-! Any byte on the bus (R308, R309). -/

@[simp] theorem State.respondFreeByte_params (s : State) : s.respondFreeByte.params = s.params := rfl
@[simp] theorem State.respondFreeByte_cmd (s : State) : s.respondFreeByte.cmd = s.cmd := rfl
@[simp] theorem State.respondFreeByte_busy (s : State) : s.respondFreeByte.busy = s.busy := rfl
@[simp] theorem State.respondFreeByte_done (s : State) : s.respondFreeByte.done = s.done := rfl
@[simp] theorem State.respondFreeByte_err (s : State) : s.respondFreeByte.err = s.err := rfl
@[simp] theorem State.respondFreeByte_key (s : State) : s.respondFreeByte.key = s.key := rfl
@[simp] theorem State.respondFreeByte_iv (s : State) : s.respondFreeByte.iv = s.iv := rfl
@[simp] theorem State.respondFreeByte_blkIn (s : State) : s.respondFreeByte.blkIn = s.blkIn := rfl
@[simp] theorem State.respondFreeByte_blkOut (s : State) : s.respondFreeByte.blkOut = s.blkOut := rfl
@[simp] theorem State.respondFreeByte_len (s : State) : s.respondFreeByte.len = s.len := rfl
@[simp] theorem State.respondFreeByte_plen (s : State) : s.respondFreeByte.plen = s.plen := rfl
@[simp] theorem State.respondFreeByte_outLen (s : State) : s.respondFreeByte.outLen = s.outLen := rfl
@[simp] theorem State.respondFreeByte_rk (s : State) : s.respondFreeByte.rk = s.rk := rfl
@[simp] theorem State.respondFreeByte_inBuf (s : State) : s.respondFreeByte.inBuf = s.inBuf := rfl
@[simp] theorem State.respondFreeByte_outBuf (s : State) : s.respondFreeByte.outBuf = s.outBuf := rfl
@[simp] theorem State.respondFreeByte_hidden (s : State) : s.respondFreeByte.hidden = s.hidden := rfl
@[simp] theorem State.respondFreeByte_faulted (s : State) : s.respondFreeByte.faulted = s.faulted := rfl
@[simp] theorem State.respondFreeByte_reply (s : State) : s.respondFreeByte.reply = some (zext64 ((Config.freeValue s.draws).setWidth 8)) := rfl
@[simp] theorem State.respondFreeByte_draws (s : State) : s.respondFreeByte.draws = s.draws + 1 := rfl
@[simp] theorem State.respondFreeByte_agenda (s : State) : s.respondFreeByte.agenda = s.agenda := rfl

/-! The results of a mode command (R240, R266). -/

@[simp] theorem State.emit_params (s : State) (bytes : List Byte) (n : Nat) (ks : Vector RoundKey 16) : (s.emit bytes n ks).params = s.params := rfl
@[simp] theorem State.emit_cmd (s : State) (bytes : List Byte) (n : Nat) (ks : Vector RoundKey 16) : (s.emit bytes n ks).cmd = s.cmd := rfl
@[simp] theorem State.emit_busy (s : State) (bytes : List Byte) (n : Nat) (ks : Vector RoundKey 16) : (s.emit bytes n ks).busy = s.busy := rfl
@[simp] theorem State.emit_done (s : State) (bytes : List Byte) (n : Nat) (ks : Vector RoundKey 16) : (s.emit bytes n ks).done = s.done := rfl
@[simp] theorem State.emit_err (s : State) (bytes : List Byte) (n : Nat) (ks : Vector RoundKey 16) : (s.emit bytes n ks).err = s.err := rfl
@[simp] theorem State.emit_key (s : State) (bytes : List Byte) (n : Nat) (ks : Vector RoundKey 16) : (s.emit bytes n ks).key = s.key := rfl
@[simp] theorem State.emit_iv (s : State) (bytes : List Byte) (n : Nat) (ks : Vector RoundKey 16) : (s.emit bytes n ks).iv = s.iv := rfl
@[simp] theorem State.emit_blkIn (s : State) (bytes : List Byte) (n : Nat) (ks : Vector RoundKey 16) : (s.emit bytes n ks).blkIn = s.blkIn := rfl
@[simp] theorem State.emit_blkOut (s : State) (bytes : List Byte) (n : Nat) (ks : Vector RoundKey 16) : (s.emit bytes n ks).blkOut = s.blkOut := rfl
@[simp] theorem State.emit_len (s : State) (bytes : List Byte) (n : Nat) (ks : Vector RoundKey 16) : (s.emit bytes n ks).len = s.len := rfl
@[simp] theorem State.emit_plen (s : State) (bytes : List Byte) (n : Nat) (ks : Vector RoundKey 16) : (s.emit bytes n ks).plen = s.plen := rfl
@[simp] theorem State.emit_outLen (s : State) (bytes : List Byte) (n : Nat) (ks : Vector RoundKey 16) : (s.emit bytes n ks).outLen = BitVec.ofNat 32 n := rfl
@[simp] theorem State.emit_rk (s : State) (bytes : List Byte) (n : Nat) (ks : Vector RoundKey 16) : (s.emit bytes n ks).rk = ks := rfl
@[simp] theorem State.emit_inBuf (s : State) (bytes : List Byte) (n : Nat) (ks : Vector RoundKey 16) : (s.emit bytes n ks).inBuf = s.inBuf := rfl
@[simp] theorem State.emit_outBuf (s : State) (bytes : List Byte) (n : Nat) (ks : Vector RoundKey 16) : (s.emit bytes n ks).outBuf = s.outBuf.writeBytes 0 bytes := rfl
@[simp] theorem State.emit_hidden (s : State) (bytes : List Byte) (n : Nat) (ks : Vector RoundKey 16) : (s.emit bytes n ks).hidden = s.hidden := rfl
@[simp] theorem State.emit_faulted (s : State) (bytes : List Byte) (n : Nat) (ks : Vector RoundKey 16) : (s.emit bytes n ks).faulted = s.faulted := rfl
@[simp] theorem State.emit_reply (s : State) (bytes : List Byte) (n : Nat) (ks : Vector RoundKey 16) : (s.emit bytes n ks).reply = s.reply := rfl
@[simp] theorem State.emit_draws (s : State) (bytes : List Byte) (n : Nat) (ks : Vector RoundKey 16) : (s.emit bytes n ks).draws = s.draws := rfl
@[simp] theorem State.emit_agenda (s : State) (bytes : List Byte) (n : Nat) (ks : Vector RoundKey 16) : (s.emit bytes n ks).agenda = s.agenda := rfl

/-! The reset input (R380). -/

@[simp] theorem State.assertReset_params (s : State) : s.assertReset.params = s.params := rfl
@[simp] theorem State.assertReset_cmd (s : State) : s.assertReset.cmd = 0 := rfl
@[simp] theorem State.assertReset_busy (s : State) : s.assertReset.busy = false := rfl
@[simp] theorem State.assertReset_done (s : State) : s.assertReset.done = false := rfl
@[simp] theorem State.assertReset_err (s : State) : s.assertReset.err = 0 := rfl
@[simp] theorem State.assertReset_key (s : State) : s.assertReset.key = 0 := rfl
@[simp] theorem State.assertReset_iv (s : State) : s.assertReset.iv = s.params.ivReset := rfl
@[simp] theorem State.assertReset_blkIn (s : State) : s.assertReset.blkIn = 0 := rfl
@[simp] theorem State.assertReset_blkOut (s : State) : s.assertReset.blkOut = 0 := rfl
@[simp] theorem State.assertReset_len (s : State) : s.assertReset.len = 0 := rfl
@[simp] theorem State.assertReset_plen (s : State) : s.assertReset.plen = 0 := rfl
@[simp] theorem State.assertReset_outLen (s : State) : s.assertReset.outLen = 0 := rfl
@[simp] theorem State.assertReset_rk (s : State) : s.assertReset.rk = Vector.replicate 16 0#48 := rfl
@[simp] theorem State.assertReset_inBuf (s : State) : s.assertReset.inBuf = [] := rfl
@[simp] theorem State.assertReset_outBuf (s : State) : s.assertReset.outBuf = [] := rfl
@[simp] theorem State.assertReset_hidden (s : State) : s.assertReset.hidden = Hidden.draw s.draws := rfl
@[simp] theorem State.assertReset_faulted (s : State) : s.assertReset.faulted = configFault s.params := rfl
@[simp] theorem State.assertReset_reply (s : State) : s.assertReset.reply = none := rfl
@[simp] theorem State.assertReset_draws (s : State) : s.assertReset.draws = s.draws + hiddenDraws := rfl
@[simp] theorem State.assertReset_agenda (s : State) : s.assertReset.agenda = s.agenda := rfl

/-! The reset state (R381). -/

@[simp] theorem State.resetFor_params (p : Params) : (State.resetFor p).params = p := rfl
@[simp] theorem State.resetFor_cmd (p : Params) : (State.resetFor p).cmd = 0 := rfl
@[simp] theorem State.resetFor_busy (p : Params) : (State.resetFor p).busy = false := rfl
@[simp] theorem State.resetFor_done (p : Params) : (State.resetFor p).done = false := rfl
@[simp] theorem State.resetFor_err (p : Params) : (State.resetFor p).err = 0 := rfl
@[simp] theorem State.resetFor_key (p : Params) : (State.resetFor p).key = 0 := rfl
@[simp] theorem State.resetFor_iv (p : Params) : (State.resetFor p).iv = p.ivReset := rfl
@[simp] theorem State.resetFor_blkIn (p : Params) : (State.resetFor p).blkIn = 0 := rfl
@[simp] theorem State.resetFor_blkOut (p : Params) : (State.resetFor p).blkOut = 0 := rfl
@[simp] theorem State.resetFor_len (p : Params) : (State.resetFor p).len = 0 := rfl
@[simp] theorem State.resetFor_plen (p : Params) : (State.resetFor p).plen = 0 := rfl
@[simp] theorem State.resetFor_outLen (p : Params) : (State.resetFor p).outLen = 0 := rfl
@[simp] theorem State.resetFor_rk (p : Params) : (State.resetFor p).rk = Vector.replicate 16 0#48 := rfl
@[simp] theorem State.resetFor_inBuf (p : Params) : (State.resetFor p).inBuf = [] := rfl
@[simp] theorem State.resetFor_outBuf (p : Params) : (State.resetFor p).outBuf = [] := rfl
@[simp] theorem State.resetFor_hidden (p : Params) : (State.resetFor p).hidden = Hidden.atReset := rfl
@[simp] theorem State.resetFor_faulted (p : Params) : (State.resetFor p).faulted = configFault p := rfl
@[simp] theorem State.resetFor_reply (p : Params) : (State.resetFor p).reply = none := rfl
@[simp] theorem State.resetFor_draws (p : Params) : (State.resetFor p).draws = 0 := rfl
@[simp] theorem State.resetFor_agenda (p : Params) : (State.resetFor p).agenda = [] := rfl

/-! The agenda replaced. -/

@[simp] theorem State.withAgenda_params (s : State) (moves : List Event) : (s.withAgenda moves).params = s.params := rfl
@[simp] theorem State.withAgenda_cmd (s : State) (moves : List Event) : (s.withAgenda moves).cmd = s.cmd := rfl
@[simp] theorem State.withAgenda_busy (s : State) (moves : List Event) : (s.withAgenda moves).busy = s.busy := rfl
@[simp] theorem State.withAgenda_done (s : State) (moves : List Event) : (s.withAgenda moves).done = s.done := rfl
@[simp] theorem State.withAgenda_err (s : State) (moves : List Event) : (s.withAgenda moves).err = s.err := rfl
@[simp] theorem State.withAgenda_key (s : State) (moves : List Event) : (s.withAgenda moves).key = s.key := rfl
@[simp] theorem State.withAgenda_iv (s : State) (moves : List Event) : (s.withAgenda moves).iv = s.iv := rfl
@[simp] theorem State.withAgenda_blkIn (s : State) (moves : List Event) : (s.withAgenda moves).blkIn = s.blkIn := rfl
@[simp] theorem State.withAgenda_blkOut (s : State) (moves : List Event) : (s.withAgenda moves).blkOut = s.blkOut := rfl
@[simp] theorem State.withAgenda_len (s : State) (moves : List Event) : (s.withAgenda moves).len = s.len := rfl
@[simp] theorem State.withAgenda_plen (s : State) (moves : List Event) : (s.withAgenda moves).plen = s.plen := rfl
@[simp] theorem State.withAgenda_outLen (s : State) (moves : List Event) : (s.withAgenda moves).outLen = s.outLen := rfl
@[simp] theorem State.withAgenda_rk (s : State) (moves : List Event) : (s.withAgenda moves).rk = s.rk := rfl
@[simp] theorem State.withAgenda_inBuf (s : State) (moves : List Event) : (s.withAgenda moves).inBuf = s.inBuf := rfl
@[simp] theorem State.withAgenda_outBuf (s : State) (moves : List Event) : (s.withAgenda moves).outBuf = s.outBuf := rfl
@[simp] theorem State.withAgenda_hidden (s : State) (moves : List Event) : (s.withAgenda moves).hidden = s.hidden := rfl
@[simp] theorem State.withAgenda_faulted (s : State) (moves : List Event) : (s.withAgenda moves).faulted = s.faulted := rfl
@[simp] theorem State.withAgenda_reply (s : State) (moves : List Event) : (s.withAgenda moves).reply = s.reply := rfl
@[simp] theorem State.withAgenda_draws (s : State) (moves : List Event) : (s.withAgenda moves).draws = s.draws := rfl
@[simp] theorem State.withAgenda_agenda (s : State) (moves : List Event) : (s.withAgenda moves).agenda = moves := rfl

/-! The placed command word. -/

@[simp] theorem State.withFetchWord_params (s : State) (nbits w : Nat) : (s.withFetchWord nbits w).params = s.params := rfl
@[simp] theorem State.withFetchWord_cmd (s : State) (nbits w : Nat) : (s.withFetchWord nbits w).cmd = BitVec.ofNat 32 (w % 2 ^ nbits) := rfl
@[simp] theorem State.withFetchWord_busy (s : State) (nbits w : Nat) : (s.withFetchWord nbits w).busy = true := rfl
@[simp] theorem State.withFetchWord_done (s : State) (nbits w : Nat) : (s.withFetchWord nbits w).done = false := rfl
@[simp] theorem State.withFetchWord_err (s : State) (nbits w : Nat) : (s.withFetchWord nbits w).err = 0 := rfl
@[simp] theorem State.withFetchWord_key (s : State) (nbits w : Nat) : (s.withFetchWord nbits w).key = s.key := rfl
@[simp] theorem State.withFetchWord_iv (s : State) (nbits w : Nat) : (s.withFetchWord nbits w).iv = s.iv := rfl
@[simp] theorem State.withFetchWord_blkIn (s : State) (nbits w : Nat) : (s.withFetchWord nbits w).blkIn = s.blkIn := rfl
@[simp] theorem State.withFetchWord_blkOut (s : State) (nbits w : Nat) : (s.withFetchWord nbits w).blkOut = s.blkOut := rfl
@[simp] theorem State.withFetchWord_len (s : State) (nbits w : Nat) : (s.withFetchWord nbits w).len = s.len := rfl
@[simp] theorem State.withFetchWord_plen (s : State) (nbits w : Nat) : (s.withFetchWord nbits w).plen = s.plen := rfl
@[simp] theorem State.withFetchWord_outLen (s : State) (nbits w : Nat) : (s.withFetchWord nbits w).outLen = s.outLen := rfl
@[simp] theorem State.withFetchWord_rk (s : State) (nbits w : Nat) : (s.withFetchWord nbits w).rk = s.rk := rfl
@[simp] theorem State.withFetchWord_inBuf (s : State) (nbits w : Nat) : (s.withFetchWord nbits w).inBuf = s.inBuf := rfl
@[simp] theorem State.withFetchWord_outBuf (s : State) (nbits w : Nat) : (s.withFetchWord nbits w).outBuf = s.outBuf := rfl
@[simp] theorem State.withFetchWord_hidden (s : State) (nbits w : Nat) : (s.withFetchWord nbits w).hidden = s.hidden := rfl
@[simp] theorem State.withFetchWord_faulted (s : State) (nbits w : Nat) : (s.withFetchWord nbits w).faulted = s.faulted := rfl
@[simp] theorem State.withFetchWord_reply (s : State) (nbits w : Nat) : (s.withFetchWord nbits w).reply = s.reply := rfl
@[simp] theorem State.withFetchWord_draws (s : State) (nbits w : Nat) : (s.withFetchWord nbits w).draws = s.draws := rfl
@[simp] theorem State.withFetchWord_agenda (s : State) (nbits w : Nat) : (s.withFetchWord nbits w).agenda = .engine :: s.agenda := rfl

@[simp] theorem ErrCode.bits_ok : ErrCode.ok.bits = 0 := rfl
@[simp] theorem ErrCode.bits_illegalCmd : ErrCode.illegalCmd.bits = 1 := rfl
@[simp] theorem ErrCode.bits_lenRange : ErrCode.lenRange.bits = 2 := rfl
@[simp] theorem ErrCode.bits_decLength : ErrCode.decLength.bits = 3 := rfl

/-! ### The configuration check -/

/-- Nothing is recorded for a good table set. -/
theorem configFault_of_wf {p : Params} (h : p.tables.wf = true) : configFault p = none := by simp [configFault, h]

/-- BadTables is recorded for a bad one. -/
theorem configFault_of_bad {p : Params} (h : p.tables.wf = false) : configFault p = some .badTables := by simp [configFault, h]

/-- The default tables meet R158. -/
theorem desTables_wf : desTables.wf = true := by decide +kernel

/-- State.reset has no recorded fault. -/
@[simp] theorem State.reset_faulted : State.reset.faulted = none :=
  configFault_of_wf (p := defaultParams) desTables_wf

end Sys2Proof.Machine
end

