-- ==== Sys2Proof/Laws/Ops.lean ====
section
/-! SUPPORT. What the shared operations do: buffers, byte sequences, permutations, errors and faults. -/

namespace Sys2Proof.Machine

/-! ### Buffers -/

@[simp] theorem Memory.read_nil (a : Nat) : Memory.read [] a = none := rfl

/-- A read after a write to the same index gives the byte written. -/
@[simp] theorem Memory.read_write_same (m : Memory) (a : Nat) (b : Byte) : (m.write a b).read a = some b := by
  induction m with
  | nil => simp [Memory.write, Memory.read]
  | cons c m ih =>
    obtain ⟨k, v⟩ := c
    rcases Nat.lt_trichotomy a k with h | h | h
    · simp [Memory.write, Memory.read, h]
    · simp [Memory.write, Memory.read, h]
    · simp [Memory.write, Memory.read, ih, show ¬ a < k by omega, show a ≠ k by omega, show k ≠ a by omega]

/-- A write leaves every other index alone. -/
theorem Memory.read_write_other (m : Memory) {a x : Nat} (b : Byte) (h : x ≠ a) : (m.write a b).read x = m.read x := by
  induction m with
  | nil => simp [Memory.write, Memory.read, h.symm]
  | cons c m ih =>
    obtain ⟨k, v⟩ := c
    rcases Nat.lt_trichotomy a k with h' | h' | h'
    · simp [Memory.write, Memory.read, h', h.symm]
    · subst h'
      simp [Memory.write, Memory.read, h.symm]
    · simp [Memory.write, Memory.read, ih, show ¬ a < k by omega, show a ≠ k by omega]

/-- Read after write, at any index. -/
theorem Memory.read_write (m : Memory) (a x : Nat) (b : Byte) :
    (m.write a b).read x = if x = a then some b else m.read x := by
  by_cases h : x = a
  · subst h; simp
  · simp [h, Memory.read_write_other m b h]

/-- The indices a write lists: those of before, and the one written. -/
theorem Memory.mem_write {m : Memory} {a : Nat} {b : Byte} {c : Host.Cell} (h : c ∈ m.write a b) :
    c = (a, b) ∨ c ∈ m := by
  induction m with
  | nil => simpa [Memory.write] using h
  | cons d m ih =>
    obtain ⟨k, v⟩ := d
    simp only [Memory.write] at h
    split at h
    · simpa using h
    · split at h
      · rcases List.mem_cons.mp h with h | h
        · exact .inl h
        · exact .inr (List.mem_cons_of_mem _ h)
      · rcases List.mem_cons.mp h with h | h
        · exact .inr (h ▸ List.mem_cons_self)
        · exact (ih h).imp id (List.mem_cons_of_mem _)

/-- A write keeps the canonical form. -/
theorem Memory.write_wf {m : Memory} (a : Nat) (b : Byte) (h : m.wf) : (m.write a b).wf := by
  induction m with
  | nil => simp [Memory.write, Memory.wf]
  | cons c m ih =>
    obtain ⟨k, v⟩ := c
    have hk : ∀ x ∈ m.map Prod.fst, k < x := (List.pairwise_cons.mp h).1
    have hm : Memory.wf m := (List.pairwise_cons.mp h).2
    simp only [Memory.write]
    split
    · rename_i hak
      refine List.pairwise_cons.mpr ⟨fun x hx => ?_, h⟩
      rcases List.mem_cons.mp hx with rfl | hx
      · exact hak
      · exact Nat.lt_trans hak (hk x hx)
    · split
      · rename_i hak
        subst hak
        exact List.pairwise_cons.mpr ⟨hk, hm⟩
      · refine List.pairwise_cons.mpr ⟨fun x hx => ?_, ih hm⟩
        obtain ⟨c, hc, rfl⟩ := List.mem_map.mp hx
        rcases Memory.mem_write hc with rfl | hc
        · show k < a
          omega
        · exact hk _ (List.mem_map_of_mem hc)

/-- What a multi-byte write leaves at any index. -/
theorem Memory.read_writeBytes (m : Memory) (a x : Nat) (bs : List Byte) :
    (m.writeBytes a bs).read x = if a ≤ x ∧ x < a + bs.length then bs[x - a]? else m.read x := by
  induction bs generalizing m a with
  | nil => simp [Memory.writeBytes, show ¬ (a ≤ x ∧ x < a) by omega]
  | cons b bs ih =>
    rw [Memory.writeBytes, ih, Memory.read_write, List.length_cons]
    by_cases h1 : x = a
    · subst h1
      simp [show ¬ (x + 1 ≤ x) by omega]
    · by_cases h2 : a + 1 ≤ x ∧ x < a + 1 + bs.length
      · rw [if_pos h2, if_pos (by omega), show x - a = (x - (a + 1)) + 1 by omega, List.getElem?_cons_succ]
      · rw [if_neg h2, if_neg h1, if_neg (by omega)]

/-- A multi-byte write keeps the canonical form. -/
theorem Memory.writeBytes_wf {m : Memory} (a : Nat) (bs : List Byte) (h : m.wf) : (m.writeBytes a bs).wf := by
  induction bs generalizing m a with
  | nil => exact h
  | cons b bs ih => exact ih (a + 1) (Memory.write_wf a b h)

/-- The indices a multi-byte write lists. -/
theorem Memory.mem_writeBytes {m : Memory} {a : Nat} {bs : List Byte} {c : Host.Cell} (h : c ∈ m.writeBytes a bs) :
    (a ≤ c.1 ∧ c.1 < a + bs.length) ∨ c ∈ m := by
  induction bs generalizing m a with
  | nil => exact .inr h
  | cons b bs ih =>
    rcases ih h with h | h
    · left; simp only [List.length_cons]; omega
    · rcases Memory.mem_write h with rfl | h
      · left; simp
      · exact .inr h

/-- The message a multi-byte read gives: as many bytes as asked for, each the byte at its index. -/
theorem Memory.readBytes_eq_some {m : Memory} {a n : Nat} {bs : List Byte} :
    m.readBytes a n = some bs ↔ bs.length = n ∧ ∀ k, k < n → m.read (a + k) = bs[k]? := by
  induction n generalizing a bs with
  | zero =>
    simp only [Memory.readBytes, Option.some.injEq, Nat.not_lt_zero, false_implies, implies_true, and_true,
      List.length_eq_zero_iff]
    exact eq_comm
  | succ n ih =>
    simp only [Memory.readBytes]
    constructor
    · intro h
      split at h
      · rename_i b cs hb hcs
        obtain rfl : b :: cs = bs := by simpa using h
        obtain ⟨hl, hr⟩ := ih.mp hcs
        refine ⟨by simp [hl], fun k hk => ?_⟩
        cases k with
        | zero => simpa using hb
        | succ k =>
          rw [show a + (k + 1) = a + 1 + k by omega, hr k (by omega), List.getElem?_cons_succ]
      · exact absurd h (by simp)
    · rintro ⟨hl, hr⟩
      match bs, hl with
      | b :: cs, hl =>
        have hb : m.read a = some b := by simpa using hr 0 (by omega)
        have hcs : m.readBytes (a + 1) n = some cs := by
          refine ih.mpr ⟨by simpa using hl, fun k hk => ?_⟩
          rw [show a + 1 + k = a + (k + 1) by omega, hr (k + 1) (by omega), List.getElem?_cons_succ]
        simp [hb, hcs]

/-- A multi-byte read of written bytes succeeds. -/
theorem Memory.readBytes_of_written {m : Memory} {a n : Nat} (h : ∀ k, k < n → (m.read (a + k)).isSome = true) :
    ∃ bs, m.readBytes a n = some bs := by
  induction n generalizing a with
  | zero => exact ⟨[], rfl⟩
  | succ n ih =>
    obtain ⟨bs, hbs⟩ := ih (a := a + 1) fun k hk => by
      rw [show a + 1 + k = a + (k + 1) by omega]; exact h (k + 1) (by omega)
    obtain ⟨b, hb⟩ := Option.isSome_iff_exists.mp (h 0 (by omega))
    exact ⟨b :: bs, by simp [Memory.readBytes, hbs, show m.read a = some b by simpa using hb]⟩

/-- A multi-byte read fails exactly where a byte is unwritten. -/
theorem Memory.readBytes_eq_none {m : Memory} {a n : Nat} :
    m.readBytes a n = none ↔ ∃ k, k < n ∧ m.read (a + k) = none := by
  constructor
  · intro h
    by_contra hc
    push Not at hc
    obtain ⟨bs, hbs⟩ := Memory.readBytes_of_written (m := m) (a := a) (n := n) fun k hk =>
      Option.isSome_iff_ne_none.mpr (hc k hk)
    simp [h] at hbs
  · rintro ⟨k, hk, hn⟩
    cases hb : m.readBytes a n with
    | none => rfl
    | some bs =>
      obtain ⟨hl, hr⟩ := Memory.readBytes_eq_some.mp hb
      have := hr k hk
      rw [hn, List.getElem?_eq_getElem (by omega)] at this
      exact absurd this (by simp)

/-! ### Byte sequences -/

@[simp] theorem zeros_length (k : Nat) : (zeros k).length = k := by simp [zeros]

@[simp] theorem unpack8_length (v : Block) : (unpack8 v).length = 8 := rfl

/-- `pack8` undoes `unpack8` (R14). -/
@[simp] theorem pack8_unpack8 (v : Block) : pack8 (unpack8 v) = v := by
  refine BitVec.eq_of_getLsbD_eq fun i hi => ?_
  simp only [pack8, unpack8, List.getD_cons_zero, List.getD_cons_succ, BitVec.getLsbD_append, BitVec.getLsbD_extractLsb']
  repeat' split
  all_goals first
    | omega
    | (rw [decide_eq_true (by omega), Bool.true_and]; congr 1; omega)

/-- `unpack8` undoes `pack8` on 8 bytes (R14). -/
theorem unpack8_pack8 {s : List Byte} (h : s.length = 8) : unpack8 (pack8 s) = s := by
  match s, h with
  | [a, b, c, d, e, f, g, i], _ =>
    simp only [unpack8, pack8, List.getD_cons_zero, List.getD_cons_succ, List.cons.injEq, and_true]
    refine ⟨?_, ?_, ?_, ?_, ?_, ?_, ?_, ?_⟩ <;>
      · ext j hj
        simp only [BitVec.getElem_extractLsb', BitVec.getLsbD_append]
        repeat' split
        all_goals first
          | omega
          | (rw [BitVec.getLsbD_eq_getElem (by omega)]; congr 1; omega)

theorem blocksOf_length (m : Nat) (s : List Byte) : (blocksOf m s).length = m := by
  induction m generalizing s with
  | zero => rfl
  | succ m ih => simp [blocksOf, ih]

@[simp] theorem bytesOf_nil : bytesOf [] = [] := rfl

@[simp] theorem bytesOf_cons (b : Block) (bs : List Block) : bytesOf (b :: bs) = unpack8 b ++ bytesOf bs := rfl

@[simp] theorem bytesOf_length (bs : List Block) : (bytesOf bs).length = 8 * bs.length := by
  induction bs with
  | nil => rfl
  | cons b bs ih => simp [ih]; omega

/-- The bytes of the first m blocks of a long enough sequence are its first 8m bytes. -/
theorem bytesOf_blocksOf {m : Nat} {s : List Byte} (h : 8 * m ≤ s.length) : bytesOf (blocksOf m s) = s.take (8 * m) := by
  induction m generalizing s with
  | zero => rfl
  | succ m ih =>
    rw [blocksOf, bytesOf_cons, unpack8_pack8 (by simp; omega), ih (by simp; omega), Nat.mul_succ, Nat.add_comm,
      List.take_add]

/-- Cutting a concatenation into blocks: the blocks of the first part come first. -/
theorem blocksOf_bytesOf (bs : List Block) (s : List Byte) : blocksOf bs.length (bytesOf bs ++ s) = bs := by
  induction bs with
  | nil => rfl
  | cons b bs ih =>
    have h8 : (unpack8 b).length = 8 := unpack8_length b
    simp only [List.length_cons, blocksOf, bytesOf_cons, List.append_assoc]
    rw [List.take_left' h8, List.drop_left' h8, pack8_unpack8, ih]

/-! ### Permutations -/

/-- `permute` by table positions (R15): output position j comes from input position T[j]. -/
theorem permute_getMsbD {n m : Nat} (t : Vector Nat m) (x : BitVec n) (j : Nat) (h : j < m) :
    (permute t x).getMsbD j = x.getMsbD (t[j] - 1) := by
  simp [permute, BitVec.getMsbD_cast, BitVec.getMsbD_ofBoolListBE, List.getD_eq_getElem?_getD, h]

/-! ### Errors and faults -/

/-- Taking an error always completes the command, with the error's code. -/
theorem raiseError_eq (s : State) (code : ErrCode) : raiseError s code = .next (s.complete code) := rfl

/-- Recording turns a fault into a next state that holds it, and leaves the other outcomes alone. -/
theorem recordFault_eq_next {s t : State} {o : Result} (h : recordFault s o = .next t) :
    o = .next t ∨ ∃ f, o = .fault f ∧ t = { s with faulted := some f } := by
  cases o with
  | next u => exact .inl h
  | fault f =>
    refine .inr ⟨f, rfl, ?_⟩
    simpa [recordFault] using h.symm
  | refused r => simp [recordFault] at h

end Sys2Proof.Machine
end

