-- ==== Sys2Proof/Laws/Engine.lean ====
section
/-! SUPPORT. What the engine's units do: halves, table positions, key-schedule steps and rounds. -/

namespace Sys2Proof.Machine

/-! ### Halves -/

@[simp] theorem hi28_append_lo28 (x : BitVec 56) : hi28 x ++ lo28 x = x := by
  refine BitVec.eq_of_getLsbD_eq fun i hi => ?_
  simp only [hi28, lo28, BitVec.getLsbD_append, BitVec.getLsbD_extractLsb']
  split
  · rw [decide_eq_true (by omega)]; simp
  · rw [decide_eq_true (by omega), Bool.true_and]; congr 1; omega

@[simp] theorem hi32_append_lo32 (x : Block) : hi32 x ++ lo32 x = x := by
  refine BitVec.eq_of_getLsbD_eq fun i hi => ?_
  simp only [hi32, lo32, BitVec.getLsbD_append, BitVec.getLsbD_extractLsb']
  split
  · rw [decide_eq_true (by omega)]; simp
  · rw [decide_eq_true (by omega), Bool.true_and]; congr 1; omega

@[simp] theorem hi32_append (a b : Half) : hi32 (a ++ b) = a := by
  refine BitVec.eq_of_getLsbD_eq fun i hi => ?_
  simp only [hi32, BitVec.getLsbD_append, BitVec.getLsbD_extractLsb']
  rw [if_neg (by omega)]; simp [hi]

@[simp] theorem lo32_append (a b : Half) : lo32 (a ++ b) = b := by
  refine BitVec.eq_of_getLsbD_eq fun i hi => ?_
  simp only [lo32, BitVec.getLsbD_append, BitVec.getLsbD_extractLsb']
  rw [if_pos (by omega)]; simp [hi]

/-! ### Table sets -/

/-- What `positionsIn` says of a table, entry by entry. -/
theorem positionsIn_getElem {m n : Nat} {v : Vector Nat m} (h : positionsIn n v.toList = true) (j : Nat) (hj : j < m) :
    1 ≤ v[j] ∧ v[j] ≤ n := by
  simp only [positionsIn, List.all_eq_true, Bool.and_eq_true, decide_eq_true_eq] at h
  exact h _ (by simp)

/-- What the check of R158 says of a table set, entry by entry. -/
structure Entries (t : Tables) : Prop where
  ip      : ∀ j (_ : j < 64), 1 ≤ t.ip[j] ∧ t.ip[j] ≤ 64
  fp      : ∀ j (_ : j < 64), 1 ≤ t.fp[j] ∧ t.fp[j] ≤ 64
  ipInj   : ∀ i j (_ : i < 64) (_ : j < 64), t.ip[i] = t.ip[j] → i = j
  inverse : ∀ j (_ : j < 64), t.ip[t.fp[j] - 1]'(by have := fp j ‹_›; omega) = j + 1
  e       : ∀ j (_ : j < 48), 1 ≤ t.e[j] ∧ t.e[j] ≤ 32
  p       : ∀ j (_ : j < 32), 1 ≤ t.p[j] ∧ t.p[j] ≤ 32
  pc1     : ∀ j (_ : j < 56), 1 ≤ t.pc1[j] ∧ t.pc1[j] ≤ 64
  pc2     : ∀ j (_ : j < 48), 1 ≤ t.pc2[j] ∧ t.pc2[j] ≤ 56
  shifts  : ∀ r ∈ t.shifts.toList, r = 1 ∨ r = 2
  sbox    : ∀ k (_ : k < 8) r (_ : r < 4) c (_ : c < 16), t.sboxes[k][r][c] < 16

theorem entries_of_wf {t : Tables} (h : t.wf = true) : Entries t := by
  simp only [Tables.wf, Bool.and_eq_true, Tables.blockPermsOk, distinctIn, Tables.straightOk, Tables.choice1Ok,
    Tables.choice2Ok, decide_eq_true_eq] at h
  obtain ⟨⟨⟨⟨⟨⟨⟨⟨⟨hip, hipd⟩, hfp, -⟩, hinv⟩, hp, -⟩, he⟩, hpc1, -⟩, hpc2, -⟩, hs⟩, hsb⟩ := h
  have hf := positionsIn_getElem hfp
  refine ⟨positionsIn_getElem hip, hf, ?_, ?_, positionsIn_getElem he, positionsIn_getElem hp, positionsIn_getElem hpc1,
    positionsIn_getElem hpc2, ?_, ?_⟩
  · intro i j hi hj hij
    have inj := List.nodup_iff_injective_get.mp hipd
    have := @inj ⟨i, by simpa using hi⟩ ⟨j, by simpa using hj⟩ (by simpa using hij)
    simpa using this
  · intro j hj
    simp only [invertsIp, List.all_eq_true, List.mem_range, beq_iff_eq] at hinv
    have h1 := hinv j hj
    have h2 := hf j hj
    simp only [List.getD_eq_getElem?_getD, Vector.getElem?_toList, Vector.getElem?_eq_getElem hj, Option.getD_some] at h1
    rw [Vector.getElem?_eq_getElem (by omega), Option.getD_some] at h1
    exact h1
  · simpa only [Tables.shiftsOk, List.all_eq_true, Bool.or_eq_true, beq_iff_eq] using hs
  · intro k hk r hr c hc
    simp only [Tables.sboxesOk, List.all_eq_true, decide_eq_true_eq] at hsb
    exact hsb t.sboxes[k] (by simp) t.sboxes[k][r] (by simp) _ (by simp)

/-- A permutation with entries in range commutes with complement. -/
theorem permute_not {n m : Nat} {v : Vector Nat m} (h : ∀ j (_ : j < m), 1 ≤ v[j] ∧ v[j] ≤ n) (x : BitVec n) :
    permute v (~~~x) = ~~~(permute v x) := by
  refine BitVec.eq_of_getMsbD_eq fun j hj => ?_
  have := h j hj
  rw [permute_getMsbD _ _ _ hj, BitVec.getMsbD_not, BitVec.getMsbD_not, permute_getMsbD _ _ _ hj]
  simp [hj]; omega

/-! ### Key schedule and rounds -/

@[simp] theorem keySteps_nil (t : Tables) (c d : KeyHalf) : keySteps t [] c d = [] := rfl

@[simp] theorem keySteps_cons (t : Tables) (r : Nat) (rs : List Nat) (c d : KeyHalf) :
    keySteps t (r :: rs) c d =
      pc2 t (rotl28 c r ++ rotl28 d r) :: keySteps t rs (rotl28 c r) (rotl28 d r) := rfl

@[simp] theorem forwardKeys_length (t : Tables) (k : Block) : (forwardKeys t k).length = 16 := by
  simp [forwardKeys, keySteps_length]

@[simp] theorem deriveRoundKeys_toList (t : Tables) (k : Block) (reversed : Bool) :
    (deriveRoundKeys t k reversed).toList = scheduleList t k reversed := rfl

@[simp] theorem rounds_nil (t : Tables) (lr : Half × Half) : rounds t [] lr = lr := rfl

@[simp] theorem rounds_cons (t : Tables) (k : RoundKey) (ks : List RoundKey) (lr : Half × Half) :
    rounds t (k :: ks) lr = rounds t ks (round t lr k) := rfl

theorem rounds_append (t : Tables) (ks js : List RoundKey) (lr : Half × Half) :
    rounds t (ks ++ js) lr = rounds t js (rounds t ks lr) := by
  simp [rounds]

/-- One round undoes itself between two swaps of the halves. -/
theorem round_swap (t : Tables) (k : RoundKey) (lr : Half × Half) :
    (round t (round t lr k).swap k).swap = lr := by
  obtain ⟨l, r⟩ := lr
  simp [round]

end Sys2Proof.Machine
end

