-- ==== Sys2Proof/Laws/Machine.lean ====
section
/-! SUPPORT. What the commands, the host accesses and the step can do, each said once. -/

namespace Sys2Proof.Machine

/-! ### Commands -/

@[simp] theorem exec_nop (s : State) : exec .nop s = .next (s.complete .ok) := rfl

@[simp] theorem exec_derive (rev : Bool) (s : State) :
    exec (.derive rev) s = .next (State.complete { s with rk := deriveRoundKeys s.params.tables s.key rev } .ok) := rfl

@[simp] theorem exec_xform (s : State) :
    exec .xform s = .next (State.complete { s with blkOut := transformBlock s.params.tables s.blkIn s.rk } .ok) := rfl

/-- Everything CTS_ENC can do: the range error, the fault on unwritten input, or the results. -/
theorem exec_ctsEnc_cases (s : State) :
    (s.params.maxLen.val < s.len.toNat ∧ exec .ctsEnc s = .next (s.complete .lenRange)) ∨
    (s.len.toNat ≤ s.params.maxLen.val ∧ inputMessage s s.len.toNat = none ∧ exec .ctsEnc s = .fault .unwrittenInput) ∨
    (∃ msg, s.len.toNat ≤ s.params.maxLen.val ∧ inputMessage s s.len.toNat = some msg ∧
      exec .ctsEnc s = .next ((s.emit (cbcCtsEncrypt s.params.tables s.key s.iv msg) (encOutLen s.len.toNat)
        (deriveRoundKeys s.params.tables s.key false)).complete .ok)) := by
  show _ ∨ (_ ∧ _ ∧ execCtsEnc s = _) ∨ _
  by_cases h : s.params.maxLen.val < s.len.toNat
  · exact .inl ⟨h, by simp [exec, execCtsEnc, h, raiseError]⟩
  · cases hm : inputMessage s s.len.toNat with
    | none => exact .inr (.inl ⟨Nat.le_of_not_lt h, rfl, by simp [execCtsEnc, h, hm]⟩)
    | some msg => exact .inr (.inr ⟨msg, Nat.le_of_not_lt h, rfl, by simp [exec, execCtsEnc, h, hm]⟩)

/-- Everything CTS_DEC can do: the range error, the pair error, the fault on unwritten input, or the results. -/
theorem exec_ctsDec_cases (s : State) :
    ((s.params.maxLen.val < s.len.toNat ∨ s.params.maxLen.val < s.plen.toNat) ∧
      exec .ctsDec s = .next (s.complete .lenRange)) ∨
    (s.len.toNat ≤ s.params.maxLen.val ∧ s.plen.toNat ≤ s.params.maxLen.val ∧
      ((decAccepts s.len.toNat s.plen.toNat = false ∧ exec .ctsDec s = .next (s.complete .decLength)) ∨
       (decAccepts s.len.toNat s.plen.toNat = true ∧ inputMessage s s.len.toNat = none ∧
          exec .ctsDec s = .fault .unwrittenInput) ∨
       (∃ msg, decAccepts s.len.toNat s.plen.toNat = true ∧ inputMessage s s.len.toNat = some msg ∧
          exec .ctsDec s = .next ((s.emit (cbcCtsDecrypt s.params.tables s.key s.iv msg s.plen.toNat) s.plen.toNat
            (deriveRoundKeys s.params.tables s.key true)).complete .ok)))) := by
  by_cases h : s.params.maxLen.val < s.len.toNat ∨ s.params.maxLen.val < s.plen.toNat
  · exact .inl ⟨h, by simp [exec, execCtsDec, h, raiseError]⟩
  · refine .inr ⟨by omega, by omega, ?_⟩
    cases ha : decAccepts s.len.toNat s.plen.toNat with
    | false => exact .inl ⟨rfl, by simp [exec, execCtsDec, h, ha, raiseError]⟩
    | true =>
      cases hm : inputMessage s s.len.toNat with
      | none => exact .inr (.inl ⟨rfl, rfl, by simp [exec, execCtsDec, h, ha, hm]⟩)
      | some msg => exact .inr (.inr ⟨msg, rfl, rfl, by simp [exec, execCtsDec, h, ha, hm]⟩)

/-- The check of CTS_DEC's length pair is the table of R254. -/
theorem decAccepts_iff (n p : Nat) : decAccepts n p = true ↔ AcceptedPair n p := by
  unfold decAccepts AcceptedPair
  split
  · simp; omega
  · split <;> simp <;> omega

/-- No command is refused. -/
theorem exec_not_refused (i : Instr) (s : State) (r : Refusal) : exec i s ≠ .refused r := by
  cases i with
  | nop => simp
  | derive rev => simp
  | xform => simp
  | ctsEnc => rcases exec_ctsEnc_cases s with ⟨-, h⟩ | ⟨-, -, h⟩ | ⟨_, -, -, h⟩ <;> simp [h]
  | ctsDec =>
    rcases exec_ctsDec_cases s with ⟨-, h⟩ | ⟨-, -, ⟨-, h⟩ | ⟨-, -, h⟩ | ⟨_, -, -, h⟩⟩ <;> simp [h]

/-- What every completed command leaves: STATUS completed, and the operands, the fault and the model's own fields as they
were. -/
theorem exec_next_frame {i : Instr} {s t : State} (h : exec i s = .next t) :
    t.busy = false ∧ t.done = true ∧ OperandsKept s t ∧ RunKept s t ∧ t.inBuf = s.inBuf := by
  cases i with
  | nop => cases h; exact ⟨rfl, rfl, ⟨rfl, rfl, rfl, rfl, rfl, rfl, rfl, fun _ => rfl⟩, ⟨rfl, rfl, rfl⟩, rfl⟩
  | derive rev => cases h; exact ⟨rfl, rfl, ⟨rfl, rfl, rfl, rfl, rfl, rfl, rfl, fun _ => rfl⟩, ⟨rfl, rfl, rfl⟩, rfl⟩
  | xform => cases h; exact ⟨rfl, rfl, ⟨rfl, rfl, rfl, rfl, rfl, rfl, rfl, fun _ => rfl⟩, ⟨rfl, rfl, rfl⟩, rfl⟩
  | ctsEnc =>
    rcases exec_ctsEnc_cases s with ⟨-, h'⟩ | ⟨-, -, h'⟩ | ⟨_, -, -, h'⟩ <;> rw [h'] at h <;> cases h <;>
      exact ⟨rfl, rfl, ⟨rfl, rfl, rfl, rfl, rfl, rfl, rfl, fun _ => rfl⟩, ⟨rfl, rfl, rfl⟩, rfl⟩
  | ctsDec =>
    rcases exec_ctsDec_cases s with ⟨-, h'⟩ | ⟨-, -, ⟨-, h'⟩ | ⟨-, -, h'⟩ | ⟨_, -, -, h'⟩⟩ <;> rw [h'] at h <;> cases h <;>
      exact ⟨rfl, rfl, ⟨rfl, rfl, rfl, rfl, rfl, rfl, rfl, fun _ => rfl⟩, ⟨rfl, rfl, rfl⟩, rfl⟩

/-- Everything the engine step can do: the completion with ILLEGAL_CMD, or the command. -/
theorem engineStep_cases (s : State) :
    ((∃ e, decode s.cmd = .error e) ∧ engineStep s = .next (s.complete .illegalCmd)) ∨
    (∃ i, decode s.cmd = .ok i ∧ engineStep s = exec i s) := by
  unfold engineStep
  cases h : decode s.cmd with
  | error e => exact .inl ⟨⟨e, rfl⟩, rfl⟩
  | ok i => exact .inr ⟨i, rfl, rfl⟩

/-! ### Host accesses -/

/-- Everything a host access that answers a next state can do: write a register at BUSY = 0, write a byte of IN, or only
return a value on the bus. -/
theorem hostAccess_next {a : HostAction} {s t : State} (h : hostAccess a s = .next t) :
    (∃ n v, a = .regWrite n v ∧ s.busy = false ∧ t = writeReg { s with reply := none } v (regOf n)) ∨
    (∃ i b, a = .inWrite i b ∧ s.busy = false ∧ i < s.params.maxLen.val ∧
      t = { s with reply := none, inBuf := s.inBuf.write i b }) ∨
    (∃ i b, a = .inWrite i b ∧ s.busy = false ∧ s.params.maxLen.val ≤ i ∧ t = { s with reply := none }) ∨
    (a.isRead = true ∧ ∃ v k, t = { s with reply := some v, draws := s.draws + k }) := by
  cases a with
  | regRead n =>
    refine .inr (.inr (.inr ⟨rfl, ?_⟩))
    simp only [hostAccess, regRead] at h
    split at h <;> cases h
    · exact ⟨_, 1, rfl⟩
    · exact ⟨_, 0, rfl⟩
  | regWrite n v =>
    simp only [hostAccess, regWrite] at h
    split at h <;> cases h
    exact .inl ⟨n, v, rfl, by simpa using ‹¬ s.busy = true›, rfl⟩
  | inWrite i b =>
    simp only [hostAccess, inWrite] at h
    split at h
    · cases h
    · split at h <;> cases h
      · exact .inr (.inl ⟨i, b, rfl, by simpa using ‹¬ s.busy = true›, ‹_›, rfl⟩)
      · exact .inr (.inr (.inl ⟨i, b, rfl, by simpa using ‹¬ s.busy = true›, Nat.le_of_not_lt ‹_›, rfl⟩))
  | inRead i =>
    refine .inr (.inr (.inr ⟨rfl, ?_⟩))
    simp only [hostAccess, inRead] at h
    split at h
    · split at h <;> cases h
      exact ⟨_, 0, rfl⟩
    · cases h
      exact ⟨_, 0, rfl⟩
  | outRead i =>
    refine .inr (.inr (.inr ⟨rfl, ?_⟩))
    simp only [hostAccess, outRead] at h
    split at h
    · split at h
      · cases h
        exact ⟨_, 1, rfl⟩
      · split at h <;> cases h
        exact ⟨_, 0, rfl⟩
    · cases h
      exact ⟨_, 0, rfl⟩

/-- No host access is refused. -/
theorem hostAccess_not_refused (a : HostAction) (s : State) (r : Refusal) : hostAccess a s ≠ .refused r := by
  intro h
  cases a <;> simp only [hostAccess, regRead, regWrite, inWrite, inRead, outRead] at h <;> repeat' split at h
  all_goals cases h

/-! ### The step -/

/-- A recorded fault is answered, whatever else the state holds. -/
theorem step_of_faulted {s : State} {f : Fault} (h : s.faulted = some f) : step s = .fault f := by simp [step, h]

/-- A step to a next state starts without a fault and with a good table set, and is the next move. -/
theorem step_eq_next {s t : State} (h : step s = .next t) :
    s.faulted = none ∧ s.params.tables.wf = true ∧ advance s = .next t := by
  unfold step at h
  split at h
  · cases h
  · split at h
    · exact ⟨‹_›, ‹_›, h⟩
    · cases h

theorem step_of_good {s : State} (hf : s.faulted = none) (hw : s.params.tables.wf = true) : step s = advance s := by
  simp [step, hf, hw]

/-- The step of a host access. -/
theorem advance_host {s : State} {a : HostAction} {rest : List Event} (ha : s.agenda = .host a :: rest) :
    advance s = recordFault (s.withAgenda rest) (hostAccess a (s.withAgenda rest)) := by
  simp only [advance, ha, takeTurn]

/-- The step of an engine turn. -/
theorem advance_engine {s : State} {rest : List Event} (ha : s.agenda = .engine :: rest) :
    advance s = recordFault (s.withAgenda rest) (engineTurn (s.withAgenda rest)) := by
  simp only [advance, ha, takeTurn]

/-- The step of the reset input. -/
theorem advance_reset {s : State} {rest : List Event} (ha : s.agenda = .reset :: rest) :
    advance s = .next (s.withAgenda rest).assertReset := by
  simp only [advance, ha, takeTurn, recordFault]

/-- The step with the agenda used up. -/
theorem advance_nil {s : State} (ha : s.agenda = []) : advance s = recordFault s (engineTurn s) := by
  simp only [advance, ha]

theorem engineTurn_busy {s : State} (h : s.busy = true) : engineTurn s = engineStep s := by simp [engineTurn, h]

theorem engineTurn_idle {s : State} (h : s.busy = false) : engineTurn s = .next s := by simp [engineTurn, h]

/-- The moves an agenda allows, with the outcome of each. -/
inductive Move (s : State) : Result → Prop where
  /-- A host access. -/
  | host (a : HostAction) (rest : List Event) (ha : s.agenda = .host a :: rest) :
      Move s (recordFault (s.withAgenda rest) (hostAccess a (s.withAgenda rest)))
  /-- The engine's step, by its turn. -/
  | engine (rest : List Event) (ha : s.agenda = .engine :: rest) (hb : s.busy = true) :
      Move s (recordFault (s.withAgenda rest) (engineStep (s.withAgenda rest)))
  /-- A turn of the engine while its step is not enabled. -/
  | pass (rest : List Event) (ha : s.agenda = .engine :: rest) (hb : s.busy = false) :
      Move s (.next (s.withAgenda rest))
  /-- The reset input. -/
  | reset (rest : List Event) (ha : s.agenda = .reset :: rest) :
      Move s (.next (s.withAgenda rest).assertReset)
  /-- The engine's step, with the agenda used up. -/
  | pending (ha : s.agenda = []) (hb : s.busy = true) : Move s (recordFault s (engineStep s))
  /-- Nothing to do. -/
  | idle (ha : s.agenda = []) (hb : s.busy = false) : Move s (.next s)

/-- Every advance is one of the moves. -/
theorem advance_move (s : State) : Move s (advance s) := by
  cases ha : s.agenda with
  | nil =>
    rw [advance_nil ha]
    cases hb : s.busy with
    | false => rw [engineTurn_idle hb]; exact .idle ha hb
    | true => rw [engineTurn_busy hb]; exact .pending ha hb
  | cons e rest =>
    cases e with
    | host a => rw [advance_host ha]; exact .host a rest ha
    | reset => rw [advance_reset ha]; exact .reset rest ha
    | engine =>
      rw [advance_engine ha]
      cases hb : s.busy with
      | false => rw [engineTurn_idle (by exact hb)]; exact .pass rest ha hb
      | true => rw [engineTurn_busy (by exact hb)]; exact .engine rest ha hb

end Sys2Proof.Machine
end

