-- ==== Sys2Proof/Laws/Mode.lean ====
section
/-! SUPPORT. What the mode controller's operations do: lengths, blocks, chaining and case selection. -/

namespace Sys2Proof.Machine

/-! ### Lengths and cases -/

/-- The length decomposition of R241. -/
theorem fullLen_tailLen (n : Nat) :
    fullLen n + tailLen n = n ∧ tailLen n < 8 ∧ fullLen n % 8 = 0 ∧ tailLen n = n % 8 := by
  unfold tailLen fullLen; omega

theorem fullLen_eq (m : Nat) {d : Nat} (h : d ≤ 7) : fullLen (8 * m + d) = 8 * m := by unfold fullLen; omega

theorem tailLen_eq (m : Nat) {d : Nat} (h : d ≤ 7) : tailLen (8 * m + d) = d := by
  have := fullLen_tailLen (8 * m + d); omega

theorem encCase_full {n : Nat} (h : n ≠ 0) (h8 : n % 8 = 0) : encCase n = .full := by
  have := fullLen_tailLen n
  rw [encCase, if_neg h, if_pos (by omega)]

theorem encCase_short {n : Nat} (h1 : 1 ≤ n) (h7 : n ≤ 7) : encCase n = .short := by
  have := fullLen_tailLen n
  rw [encCase, if_neg (by omega), if_neg (by omega), if_pos (by omega)]

theorem encCase_general {m d : Nat} (hm : 1 ≤ m) (h1 : 1 ≤ d) (h7 : d ≤ 7) : encCase (8 * m + d) = .general := by
  rw [encCase, fullLen_eq m h7, tailLen_eq m h7, if_neg (by omega), if_neg (by omega), if_neg (by omega)]

theorem decCase_full (n : Nat) {p : Nat} (h : p % 8 = 0) : decCase n p = .full := by rw [decCase, if_pos h]

theorem decCase_short {n p : Nat} (h : p % 8 ≠ 0) (hn : n < 8 + p % 8) : decCase n p = .short := by
  rw [decCase, if_neg h, if_pos hn]

theorem decCase_general {n p : Nat} (h : p % 8 ≠ 0) (hn : 8 + p % 8 ≤ n) : decCase n p = .general := by
  rw [decCase, if_neg h, if_neg (by omega)]

/-- The message a mode command reads: LEN bytes, each the byte at its index of IN. -/
theorem inputMessage_eq_some {s : State} {n : Nat} {msg : List Byte} :
    inputMessage s n = some msg ↔ msg.length = n ∧ ∀ a, a < n → s.inBuf.read a = msg[a]? := by
  simpa [inputMessage] using Memory.readBytes_eq_some (m := s.inBuf) (a := 0) (n := n) (bs := msg)

/-- A written input is a message. -/
theorem inputMessage_of_written {s : State} {n : Nat} (h : InWritten s n) : ∃ msg, inputMessage s n = some msg :=
  Memory.readBytes_of_written (a := 0) fun k hk => by simpa using h k hk

/-! ### Blocks -/

/-- Block j of a byte sequence (R73). -/
theorem blocksOf_getElem? {m : Nat} {s : List Byte} {j : Nat} (h : j < m) :
    (blocksOf m s)[j]? = some (pack8 (slice s (8 * j) 8)) := by
  induction m generalizing s j with
  | zero => omega
  | succ m ih =>
    cases j with
    | zero => rfl
    | succ j =>
      rw [blocksOf, List.getElem?_cons_succ, ih (by omega)]
      simp only [slice, List.drop_drop]
      rw [show 8 + 8 * j = 8 * (j + 1) by omega]

/-- Eight bytes of a sequence of blocks are one block's (R73). -/
theorem slice_bytesOf {bs : List Block} {s : List Byte} {j : Nat} (h : j < bs.length) :
    slice (bytesOf bs ++ s) (8 * j) 8 = unpack8 bs[j] := by
  induction bs generalizing j with
  | nil => simp at h
  | cons b bs ih =>
    cases j with
    | zero => simp [slice]; rfl
    | succ j =>
      rw [List.getElem_cons_succ, ← ih (j := j) (by simpa using h)]
      simp only [slice, bytesOf_cons, List.append_assoc, Nat.mul_succ]
      rw [Nat.add_comm, ← List.drop_drop, List.drop_left' (unpack8_length b)]

/-- `unpack8` of an exclusive or, byte by byte. -/
theorem unpack8_xor (a b : Block) : unpack8 (a ^^^ b) = List.zipWith (· ^^^ ·) (unpack8 a) (unpack8 b) := by
  have h : ∀ k, (a ^^^ b).extractLsb' k 8 = a.extractLsb' k 8 ^^^ b.extractLsb' k 8 := by intro k; ext i; simp
  simp [unpack8, h]

/-- Zero bytes change nothing under exclusive or. -/
theorem zipWith_xor_zeros (k : Nat) (l : List Byte) (h : l.length ≤ k) : List.zipWith (· ^^^ ·) (zeros k) l = l := by
  induction l generalizing k with
  | nil => simp
  | cons a l ih =>
    cases k with
    | zero => simp at h
    | succ k =>
      simp only [zeros, List.replicate_succ, List.zipWith_cons_cons, BitVec.zero_xor, List.cons.injEq, true_and]
      exact ih k (by simpa using h)

/-! ### Chaining -/

theorem chain_length (f : Block → Block → Block × Block) (prev : Block) (bs : List Block) :
    (chain f prev bs).1.length = bs.length := by
  induction bs generalizing prev with
  | nil => rfl
  | cons b bs ih => simp [chain, ih]

/-- What chaining with `encStep` gives (R242): the chain values c from PREV on, each output block the next of them. -/
theorem chain_encStep (enc : Block → Block) (prev : Block) (bs : List Block) : ∃ c : Nat → Block, c 0 = prev ∧
    (∀ j (h : j < bs.length), c (j + 1) = enc (bs[j] ^^^ c j) ∧ (chain (encStep enc) prev bs).1[j]? = some (c (j + 1))) ∧
    (chain (encStep enc) prev bs).2 = c bs.length := by
  induction bs generalizing prev with
  | nil => exact ⟨fun _ => prev, rfl, fun j h => absurd h (by simp), rfl⟩
  | cons b bs ih =>
    obtain ⟨c, h1, h2, h3⟩ := ih (enc (b ^^^ prev))
    refine ⟨fun n => n.casesOn prev c, rfl, fun j h => ?_, ?_⟩
    · cases j with
      | zero => exact ⟨h1, by simp [chain, encStep, h1]⟩
      | succ j =>
        obtain ⟨e1, e2⟩ := h2 j (by simpa using h)
        exact ⟨e1, by simpa [chain, encStep] using e2⟩
    · show (chain _ (enc (b ^^^ prev)) bs).2 = _
      rw [h3]; rfl

/-- What chaining with `decStep` gives (R243). -/
theorem chain_decStep (dec : Block → Block) (prev : Block) (bs : List Block) :
    (∀ j (h : j < bs.length), (chain (decStep dec) prev bs).1[j]? =
      some (dec bs[j] ^^^ (if j = 0 then prev else bs.getD (j - 1) 0))) ∧
    (chain (decStep dec) prev bs).2 = (if bs.length = 0 then prev else bs.getD (bs.length - 1) 0) := by
  induction bs generalizing prev with
  | nil => exact ⟨fun j h => absurd h (by simp), rfl⟩
  | cons b bs ih =>
    obtain ⟨h2, h3⟩ := ih b
    refine ⟨fun j h => ?_, ?_⟩
    · cases j with
      | zero => simp [chain, decStep]
      | succ j =>
        have e : (chain (decStep dec) prev (b :: bs)).1 = (dec b ^^^ prev) :: (chain (decStep dec) b bs).1 := rfl
        rw [e, List.getElem?_cons_succ, h2 j (by simpa using h)]
        cases j <;> simp
    · show (chain (decStep dec) b bs).2 = _
      rw [h3]
      cases bs <;> simp

/-! ### Output lengths -/

/-- The output length of CTS_ENC (R252). -/
theorem encOutLen_eq (n : Nat) : encOutLen n = if n = 0 then 0 else if n ≤ 7 then 8 else n := by
  have := fullLen_tailLen n
  unfold encOutLen encCase fullLen at *
  split <;> rename_i h <;> repeat' split at h
  all_goals simp_all
  all_goals omega

/-- CTS_ENC emits OUT_LEN bytes. -/
theorem encBytes_length (enc : Block → Block) (iv : Block) (msg : List Byte) :
    (encBytes enc iv msg).length = encOutLen msg.length := by
  have := fullLen_tailLen msg.length
  unfold encBytes encOutLen
  split
  · rfl
  · rename_i h
    unfold encCase at h
    split at h
    · cases h
    · split at h
      · simp [encFull, chain_length, blocksOf_length]; omega
      · split at h <;> cases h
  · simp [encShort]
  · rename_i h
    unfold encCase at h
    repeat' split at h
    all_goals first | cases h; done | skip
    simp [encGeneral, chain_length, blocksOf_length]; omega

/-- CTS_DEC emits PLEN bytes for an accepted pair. -/
theorem decBytes_length (dec : Block → Block) (iv : Block) (msg : List Byte) (p : Nat) (h : AcceptedPair msg.length p) :
    (decBytes dec iv msg p).length = p := by
  unfold AcceptedPair at h
  unfold decBytes
  split <;> rename_i h' <;> unfold decCase at h' <;> repeat' split at h'
  all_goals first | cases h'; done | skip
  · simp [decFull, chain_length, blocksOf_length]; omega
  · simp [decShort]; omega
  · simp [decGeneral, chain_length, blocksOf_length]; omega

end Sys2Proof.Machine
end

