-- ==== Sys2Proof/Laws/PerInstr.lean ====
section
/-! SUPPORT. A family of statements proved command by command. -/

namespace Sys2Proof.Laws.ReservedBitsClear

/-- The word of a command has every reserved bit 0, and REV set for DERIVE only (30_encoding.md R101). -/
def Statement (i : Instr) : Prop :=
  cwRsvHi (encode i) = 0 ∧ cwRsvLo (encode i) = 0 ∧ (cwRev (encode i) = true → i = .derive true)

theorem nop : Statement .nop := ⟨by decide, by decide, by decide⟩

theorem derive (rev : Bool) : Statement (.derive rev) := by
  cases rev <;> exact ⟨by decide, by decide, by decide⟩

theorem xform : Statement .xform := ⟨by decide, by decide, by decide⟩

theorem ctsEnc : Statement .ctsEnc := ⟨by decide, by decide, by decide⟩

theorem ctsDec : Statement .ctsDec := ⟨by decide, by decide, by decide⟩

end Sys2Proof.Laws.ReservedBitsClear
end

