-- ==== Sys2Proof/Tests/Slice0.lean ====
section
/-! SUPPORT. The model's own tests, and for every statement with hypotheses a state that meets them. Expected values are
those of spec/ (95_test_vectors.md and the examples of the rules), as each theorem's comment says. -/

namespace Sys2Proof.Tests

open Sys2Proof Sys2Proof.Machine

set_option Elab.async false

/-! ### Helpers -/

/-- Does the outcome give a next state that passes a check? -/
def after (r : Result) (check : State → Bool) : Bool :=
  match r with
  | .next t => check t
  | .fault _ => false
  | .refused _ => false

/-- The fault an outcome gives. -/
def faultOf (r : Result) : Option Fault :=
  match r with
  | .next _ => none
  | .fault f => some f
  | .refused _ => none

/-- A passed check is a next state. -/
theorem next_of_after {r : Result} {check : State → Bool} (h : after r check = true) :
    ∃ t, r = .next t ∧ check t = true := by
  cases r with
  | next t => exact ⟨t, rfl, h⟩
  | fault f => cases h
  | refused f => cases h

theorem fault_of_faultOf {r : Result} {f : Fault} (h : faultOf r = some f) : r = .fault f := by
  cases r with
  | next t => cases h
  | fault g => cases h; rfl
  | refused g => cases h

/-- n letters from "A" on: the known pattern of 92_eei_decisions.md D23. -/
def letters (n : Nat) : List Byte := (List.range n).map fun k => BitVec.ofNat 8 (0x41 + k)

/-- The state after reset (MAX_LEN = 64) with KEY = "mysecret", a message in IN, LEN and PLEN. -/
def load (msg : List Byte) (len plen : Nat) : State :=
  { State.reset with key := 0x6D79736563726574#64, inBuf := Memory.writeBytes [] 0 msg,
                     len := BitVec.ofNat 32 len, plen := BitVec.ofNat 32 plen }

/-- The bytes of OUT[0..n). -/
def outBytes (t : State) (n : Nat) : Option (List Byte) := t.outBuf.readBytes 0 n

/-- The state after reset with a table set of its own. -/
def withTables (t : Tables) : State := State.resetFor { defaultParams with tables := t }

/-! ### Table sets: each check of R158 refuses an ill-formed one -/

/-- IP names an input position twice. -/
def badIp : Tables := { desTables with ip := desTables.ip.set 0 50 }

/-- FP is a permutation, but not the inverse of IP. -/
def badFp : Tables := { desTables with fp := desTables.ip }

/-- P names input position 33. -/
def badP : Tables := { desTables with p := desTables.p.set 31 33 }

/-- E names input position 0. -/
def badE : Tables := { desTables with e := desTables.e.set 0 0 }

/-- PC1 names an input position twice. -/
def badPc1 : Tables := { desTables with pc1 := desTables.pc1.set 55 57 }

/-- PC2 names input position 57. -/
def badPc2 : Tables := { desTables with pc2 := desTables.pc2.set 0 57 }

/-- SHIFTS holds a 3. -/
def badShifts : Tables := { desTables with shifts := desTables.shifts.set 15 3 }

/-- S8 holds a 16. -/
def badSbox : Tables :=
  { desTables with sboxes := desTables.sboxes.set 7 (desTables.sboxes[7].set 3 (desTables.sboxes[7][3].set 15 16)) }

theorem test_wf_default_tables : desTables.wf = true := desTables_wf
theorem test_wf_refuses_ip : badIp.blockPermsOk = false ∧ badIp.wf = false := by decide +kernel
theorem test_wf_refuses_fp :
    distinctIn 64 badFp.fp.toList = true ∧ badFp.blockPermsOk = false ∧ badFp.wf = false := by decide +kernel
theorem test_wf_refuses_p : badP.straightOk = false ∧ badP.wf = false := by decide +kernel
theorem test_wf_refuses_e : badE.expansionOk = false ∧ badE.wf = false := by decide +kernel
theorem test_wf_refuses_pc1 : badPc1.choice1Ok = false ∧ badPc1.wf = false := by decide +kernel
theorem test_wf_refuses_pc2 : badPc2.choice2Ok = false ∧ badPc2.wf = false := by decide +kernel
theorem test_wf_refuses_shifts : badShifts.shiftsOk = false ∧ badShifts.wf = false := by decide +kernel
theorem test_wf_refuses_sbox : badSbox.sboxesOk = false ∧ badSbox.wf = false := by decide +kernel

/-- R158, R351: a bad table set is recorded at reset and refused before any step, and its state is not final. -/
theorem test_bad_tables_recorded_and_refused :
    (withTables badSbox).faulted = some .badTables ∧ faultOf (step (withTables badSbox)) = some .badTables ∧
    ¬ (withTables badSbox).final := by decide +kernel

/-! ### Decoding: the words of R104, written out from the fields of R101 -/

theorem test_decode_nop : decode 0b00000000000000000000000_0_0000_0000#32 = .ok .nop := rfl
theorem test_decode_derive : decode 0b00000000000000000000000_0_0000_0001#32 = .ok (.derive false) := rfl
theorem test_decode_derive_rev : decode 0b00000000000000000000000_1_0000_0001#32 = .ok (.derive true) := rfl
theorem test_decode_xform : decode 0b00000000000000000000000_0_0000_0010#32 = .ok .xform := rfl
theorem test_decode_ctsEnc : decode 0b00000000000000000000000_0_0000_0011#32 = .ok .ctsEnc := rfl
theorem test_decode_ctsDec : decode 0b00000000000000000000000_0_0000_0100#32 = .ok .ctsDec := rfl

/-- R106: the three kinds of illegal words, at the ends of their ranges. -/
theorem test_decode_illegal :
    decode 0x00000005#32 = .error .reservedOp ∧ decode 0x0000000F#32 = .error .reservedOp ∧
    decode 0x00000105#32 = .error .reservedOp ∧ decode 0x00000011#32 = .error .reservedBits ∧
    decode 0x00000080#32 = .error .reservedBits ∧ decode 0x00000201#32 = .error .reservedBits ∧
    decode 0x80000000#32 = .error .reservedBits ∧ decode 0x00000100#32 = .error .revNotAllowed ∧
    decode 0x00000104#32 = .error .revNotAllowed := ⟨rfl, rfl, rfl, rfl, rfl, rfl, rfl, rfl, rfl⟩

theorem test_decodeTableWord :
    decodeTableWord 32 0x101 = some (.derive true) ∧ decodeTableWord 32 0x5 = none := ⟨rfl, rfl⟩

/-! ### One step for each command -/

/-- R310: after an ILLEGAL_CMD (STATUS = 0x12), NOP leaves STATUS = 0x02. -/
theorem test_nop_clears_err :
    after (step ({ State.reset with done := true, err := 1 }.withFetchWord 32 0x0))
      (fun t => statusWord t == 0x00000002#32) = true := by decide +kernel

/-- R342: the illegal word 0x5 leaves STATUS = 0x12 and stays readable in CMD. -/
theorem test_illegal_sets_err :
    after (engineStep (State.reset.issue 0x5#32))
      (fun t => statusWord t == 0x00000012#32 && t.cmd == 0x5#32) = true := by decide +kernel

/-- 95 section 2.5: the first row, forward. -/
theorem test_derive_forward :
    after (engineStep ({ State.reset with key := 0x133457799BBCDFF1#64 }.issue 0x1#32))
      (fun t => t.rk[0] == 0x1B02EFFC7072#48 && t.rk[1] == 0x79AED9DBC9E5#48 && t.rk[15] == 0xCB3D8B0E17F5#48) = true := by
  decide +kernel

/-- 95 section 2.5: the second row, reversed. -/
theorem test_derive_reversed :
    after (engineStep ({ State.reset with key := 0x133457799BBCDFF1#64 }.issue 0x101#32))
      (fun t => t.rk[0] == 0xCB3D8B0E17F5#48 && t.rk[1] == 0xBF918D3D3F0A#48 && t.rk[15] == 0x1B02EFFC7072#48) = true := by
  decide +kernel

/-- 95 section 2.6: the first row. -/
theorem test_xform :
    after (step ({ State.reset with blkIn := 0x0123456789ABCDEF#64,
                                    rk := deriveRoundKeys desTables 0x133457799BBCDFF1#64 false }.withFetchWord 32 0x2))
      (fun t => t.blkOut == 0x85E813540F0AB405#64 && t.blkIn == 0x0123456789ABCDEF#64) = true := by decide +kernel

/-- 95 section 2.6: the schedule of reset, all round keys 0. -/
theorem test_xform_reset_schedule :
    after (engineStep (State.reset.issue 0x2#32)) (fun t => t.blkOut == 0x8CA64DE9C1B123A7#64) = true := by
  decide +kernel

/-- 95 section 2.7: length 20, the general case. -/
theorem test_ctsEnc_general :
    after (engineStep ((load (letters 20) 20 0).issue 0x3#32))
      (fun t => t.outLen == 20#32 &&
        outBytes t 20 == some [0x21#8, 0x4E#8, 0xB8#8, 0x2A#8, 0x43#8, 0xE0#8, 0xA6#8, 0x74#8,
          0x84#8, 0x3D#8, 0xFE#8, 0x30#8, 0xC9#8, 0xE6#8, 0x76#8, 0xE2#8, 0x0D#8, 0x1B#8, 0x7F#8, 0xD9#8]) = true := by
  decide +kernel

/-- 95 section 2.7: "abc", the short input. -/
theorem test_ctsEnc_short :
    after (engineStep ((load [0x61#8, 0x62#8, 0x63#8] 3 0).issue 0x3#32))
      (fun t => t.outLen == 8#32 &&
        outBytes t 8 == some [0x89#8, 0xDB#8, 0xE1#8, 0x27#8, 0x4D#8, 0xD2#8, 0xD0#8, 0x55#8]) = true := by
  decide +kernel

/-- R262: the example, length 20. -/
theorem test_ctsDec_general :
    after (engineStep ((load [0x21#8, 0x4E#8, 0xB8#8, 0x2A#8, 0x43#8, 0xE0#8, 0xA6#8, 0x74#8, 0x84#8, 0x3D#8, 0xFE#8, 0x30#8,
        0xC9#8, 0xE6#8, 0x76#8, 0xE2#8, 0x0D#8, 0x1B#8, 0x7F#8, 0xD9#8] 20 20).issue 0x4#32))
      (fun t => t.outLen == 20#32 && outBytes t 20 == some (letters 20)) = true := by decide +kernel

/-- 95 section 2.7 read backwards: the short ciphertext of "abc", with PLEN = 3. -/
theorem test_ctsDec_short :
    after (engineStep ((load [0x89#8, 0xDB#8, 0xE1#8, 0x27#8, 0x4D#8, 0xD2#8, 0xD0#8, 0x55#8] 8 3).issue 0x4#32))
      (fun t => t.outLen == 3#32 && outBytes t 3 == some [0x61#8, 0x62#8, 0x63#8] && t.outBuf.read 3 == none) = true := by
  decide +kernel

/-! ### Datapath units -/

/-- 95 section 2.1: the S-box array, lane by lane. -/
theorem test_subst :
    subst desTables 0x000000000000#48 = 0xEFA72C4D#32 ∧ subst desTables 0xFFFFFFFFFFFF#48 = 0xD9CE3DCB#32 ∧
    subst desTables 0x6117BA866527#48 = 0x5C82B597#32 := by decide +kernel

/-- 95 section 2.2: each permutation unit. -/
theorem test_units :
    ip desTables 0x8000000000000000#64 = 0x0000000001000000#64 ∧ fp desTables 0x8000000000000000#64 = 0x40#64 ∧
    expand desTables 0x80000000#32 = 0x400000000001#48 ∧ pperm desTables 0x80000000#32 = 0x00800000#32 ∧
    pc1 desTables 0x0101010101010101#64 = 0#56 ∧ pc2 desTables 0x80000000000000#56 = 0x080000000000#48 ∧
    rotl28 0x8000001#28 1 = 0x0000003#28 ∧ rotl28 0xC000000#28 2 = 0x0000003#28 ∧
    roundFn desTables 0xF0AAF0AA#32 0x1B02EFFC7072#48 = 0x234AA9BB#32 := by decide +kernel

/-- R109: the literal "mysecret". -/
theorem test_literal8 :
    literal8 ['m', 'y', 's', 'e', 'c', 'r', 'e', 't'] = some 0x6D79736563726574#64 := by decide +kernel

/-! ### Witnesses: states that meet the hypotheses of the statements -/

/-- With the pending engine step to come, the step passes a check that the engine step passes. -/
theorem after_step_of_engineStep {s : State} {check : State → Bool} (hf : s.faulted = none)
    (hw : s.params.tables.wf = true) (ha : s.agenda = []) (hb : s.busy = true)
    (h : after (engineStep s) check = true) : after (step s) check = true := by
  obtain ⟨t, ht, hc⟩ := next_of_after h
  rw [step_of_good hf hw, advance_nil ha, engineTurn_busy hb, ht]
  exact hc

/-- A state whose next move is the one given. -/
def next (e : Event) (s : State) : State := s.withAgenda [e]

/-- With a host access next after reset, the step passes a check that the access passes. -/
theorem after_step_of_hostAccess {a : HostAction} {check : State → Bool}
    (h : after (hostAccess a State.reset) check = true) : after (step (next (.host a) State.reset)) check = true := by
  obtain ⟨t, ht, hc⟩ := next_of_after h
  have e : (next (.host a) State.reset).withAgenda [] = State.reset := rfl
  rw [step_of_good (s := next (.host a) State.reset) State.reset_faulted desTables_wf,
    advance_host (s := next (.host a) State.reset) (rest := []) rfl, e, ht]
  exact hc

theorem test_witness_StepRunsDecodedCommand :
    (∀ s : State, s = State.reset.withFetchWord 32 0x2 ∨ s = State.reset.withFetchWord 32 0x3 ∨
        s = State.reset.issue 0x2#32 ∨ s = ({ State.reset with len := 1#32 }).issue 0x3#32 →
      s.faulted = none ∧ s.params.tables.wf = true ∧ s.busy = true ∧ ∃ i, decode s.cmd = .ok i) ∧
    (∃ t, exec .xform ((State.reset.withFetchWord 32 0x2).withAgenda []) = .next t) ∧
    exec .ctsEnc (((({ State.reset with len := 1#32 }).withFetchWord 32 0x3)).withAgenda []) = .fault .unwrittenInput := by
  refine ⟨?_, ?_, fault_of_faultOf (by decide +kernel)⟩
  · rintro s (rfl | rfl | rfl | rfl) <;> exact ⟨State.reset_faulted, desTables_wf, rfl, _, rfl⟩
  · exact ⟨_, rfl⟩

theorem test_witness_StepPerformsHostAccess :
    (∀ a : HostAction, (next (.host a) State.reset).faulted = none ∧
      (next (.host a) State.reset).params.tables.wf = true ∧ (next (.host a) State.reset).agenda = [.host a]) ∧
    (∃ t, hostAccess (.inWrite 63 0xFF#8) State.reset = .next t) ∧
    hostAccess (.inRead 63) State.reset = .fault .unwrittenRead := by
  refine ⟨fun a => ⟨State.reset_faulted, desTables_wf, rfl⟩, ?_, fault_of_faultOf (by decide +kernel)⟩
  obtain ⟨t, h, -⟩ := next_of_after (r := hostAccess (.inWrite 63 0xFF#8) State.reset) (check := fun _ => true)
    (by decide +kernel)
  exact ⟨t, h⟩

theorem test_witness_EngineIdleWhileNotBusy :
    State.reset.faulted = none ∧ State.reset.params.tables.wf = true ∧ State.reset.busy = false ∧
    State.reset.agenda = [] ∧ (next .engine State.reset).agenda = [.engine] :=
  ⟨State.reset_faulted, desTables_wf, rfl, rfl, rfl⟩

theorem test_witness_FaultedOrBadTablesNeverStep :
    ({ State.reset with faulted := some .unwrittenInput } : State).faulted = some .unwrittenInput ∧
    ({ withTables badIp with faulted := none } : State).faulted = none ∧
    ({ withTables badIp with faulted := none } : State).params.tables.wf = false ∧
    badIp.wf = false ∧ defaultParams.tables.wf = true :=
  ⟨rfl, rfl, test_wf_refuses_ip.2, test_wf_refuses_ip.2, desTables_wf⟩

theorem test_witness_ParametersNeverChange :
    (∃ t, step State.reset = .next t) ∧ (∃ t, exec .nop State.reset = .next t) ∧
    (∃ t, hostAccess (.regRead 0x03#8) State.reset = .next t) := by
  refine ⟨?_, ⟨_, rfl⟩, ?_⟩
  · obtain ⟨t, h, -⟩ := next_of_after (r := step State.reset) (check := fun _ => true) (by decide +kernel)
    exact ⟨t, h⟩
  · obtain ⟨t, h, -⟩ := next_of_after (r := hostAccess (.regRead 0x03#8) State.reset) (check := fun _ => true)
      (by decide +kernel)
    exact ⟨t, h⟩

/-- A state after a CTS_ENC of 8 bytes: OUT written, OUT_LEN = 8, DONE = 1. -/
def encrypted : State :=
  { State.reset with done := true, outLen := 8#32, outBuf := Memory.writeBytes [] 0 (letters 8) }

theorem test_witness_StepKeepsTheInvariant : encrypted.Inv ∧ ∃ t, step (next .reset encrypted) = .next t := by
  constructor
  · constructor <;> decide +kernel
  · obtain ⟨t, h, -⟩ := next_of_after (r := step (next .reset encrypted)) (check := fun _ => true) (by decide +kernel)
    exact ⟨t, h⟩

/-- The invariant covers the largest output as well: OUT_LEN = MAX_LEN = 64. -/
theorem test_inv_full_output :
    ({ State.reset with done := true, outLen := 64#32, outBuf := Memory.writeBytes [] 0 (letters 64) } : State).Inv := by
  constructor <;> decide +kernel

theorem test_witness_EveryRunEnds :
    (State.reset.issue 0x2#32).faulted = none ∧ (State.reset.issue 0x2#32).params.tables.wf = true ∧
    (State.reset.issue 0x2#32).agenda = [] ∧ (State.reset.issue 0x2#32).busy = true :=
  ⟨State.reset_faulted, desTables_wf, rfl, rfl⟩

theorem test_witness_StatusChangesOnlyByIssueCompletionReset :
    (∃ t, step (next (.host (.regWrite 0x00#8 0x5#64)) State.reset) = .next t ∧ t.busy ≠ State.reset.busy) ∧
    (∃ t, step (State.reset.issue 0x5#32) = .next t ∧ t.busy ≠ (State.reset.issue 0x5#32).busy) ∧
    (∃ t, step (next .reset encrypted) = .next t ∧ t.done ≠ encrypted.done) := by
  refine ⟨?_, ?_, ?_⟩
  · obtain ⟨t, h, hc⟩ := next_of_after (r := step (next (.host (.regWrite 0x00#8 0x5#64)) State.reset))
      (check := fun t => decide (t.busy ≠ State.reset.busy)) (by decide +kernel)
    exact ⟨t, h, of_decide_eq_true hc⟩
  · obtain ⟨t, h, hc⟩ := next_of_after (r := step (State.reset.issue 0x5#32))
      (check := fun t => decide (t.busy ≠ (State.reset.issue 0x5#32).busy)) (by decide +kernel)
    exact ⟨t, h, of_decide_eq_true hc⟩
  · obtain ⟨t, h, hc⟩ := next_of_after (r := step (next .reset encrypted))
      (check := fun t => decide (t.done ≠ encrypted.done)) (by decide +kernel)
    exact ⟨t, h, of_decide_eq_true hc⟩

/-- Each clause: a step that changes that operand. -/
theorem test_witness_OperandsChangeOnlyByHostOrReset :
    after (step (next (.host (.regWrite 0x00#8 7#64)) State.reset)) (fun t => t.cmd != State.reset.cmd) = true ∧
    after (step (next (.host (.regWrite 0x02#8 7#64)) State.reset)) (fun t => t.key != State.reset.key) = true ∧
    after (step (next (.host (.regWrite 0x03#8 7#64)) State.reset)) (fun t => t.iv != State.reset.iv) = true ∧
    after (step (next (.host (.regWrite 0x04#8 7#64)) State.reset)) (fun t => t.blkIn != State.reset.blkIn) = true ∧
    after (step (next (.host (.regWrite 0x06#8 7#64)) State.reset)) (fun t => t.len != State.reset.len) = true ∧
    after (step (next (.host (.regWrite 0x07#8 7#64)) State.reset)) (fun t => t.plen != State.reset.plen) = true ∧
    after (step (next (.host (.inWrite 0 7#8)) State.reset)) (fun t => t.inBuf.read 0 != State.reset.inBuf.read 0) = true ∧
    after (step (next (.host (.inWrite 63 7#8)) State.reset))
      (fun t => t.inBuf.read 63 != State.reset.inBuf.read 63) = true := by
  refine ⟨?_, ?_, ?_, ?_, ?_, ?_, ?_, ?_⟩ <;> exact after_step_of_hostAccess (by decide +kernel)

/-- Each clause: a step that changes that result, with an empty agenda and with the engine's turn next. -/
theorem test_witness_ResultsChangeOnlyByTheirCommands :
    after (step (State.reset.issue 0x2#32)) (fun t => t.blkOut != State.reset.blkOut) = true ∧
    after (step (State.reset.withFetchWord 32 0x2)) (fun t => t.blkOut != State.reset.blkOut) = true ∧
    after (step ((load (letters 8) 8 0).issue 0x3#32)) (fun t => t.outLen != 0#32) = true ∧
    after (step ((load (letters 8) 8 0).issue 0x3#32)) (fun t => t.outBuf.read 7 != none) = true ∧
    after (step ((load (letters 8) 8 8).issue 0x4#32)) (fun t => t.outBuf.read 0 != none && t.rk[15] != 0#48) = true ∧
    after (step ((load [] 0 0).issue 0x1#32)) (fun t => t.rk[0] != 0#48) = true ∧
    after (step (next (.host (.regWrite 0x10#8 7#64)) State.reset)) (fun t => t.rk[0] != 0#48) = true ∧
    after (step (next (.host (.regWrite 0x1F#8 7#64)) State.reset)) (fun t => t.rk[15] != 0#48) = true := by
  refine ⟨?_, by decide +kernel, ?_, ?_, ?_, ?_, after_step_of_hostAccess (by decide +kernel),
    after_step_of_hostAccess (by decide +kernel)⟩ <;>
    exact after_step_of_engineStep State.reset_faulted desTables_wf rfl rfl (by decide +kernel)

/-- A read while a command runs: one that completes, and one that faults. -/
theorem test_witness_ReadsDoNotDisturbTheCommand :
    (State.reset.issue 0x2#32).busy = true ∧ (HostAction.regRead 0x05#8).isRead = true ∧
    after (hostAccess (.regRead 0x05#8) (State.reset.issue 0x2#32)) (fun _ => true) = true ∧
    after (engineStep (State.reset.issue 0x2#32)) (fun _ => true) = true ∧
    after (hostAccess (.regRead 0x01#8) ((load [] 1 0).issue 0x3#32)) (fun _ => true) = true ∧
    faultOf (engineStep ((load [] 1 0).issue 0x3#32)) = some .unwrittenInput := by decide +kernel

theorem test_witness_ResetInputRestoresResetState :
    let s := next .reset ((load (letters 8) 8 0).issue 0x3#32)
    s.faulted = none ∧ s.params.tables.wf = true ∧ s.agenda = [.reset] ∧ s.busy = true :=
  ⟨State.reset_faulted, desTables_wf, rfl, rfl⟩

theorem test_witness_IllegalWordsCompleteWithError :
    ∀ w : Word, w = 0x5#32 ∨ w = 0xF#32 ∨ w = 0x200#32 ∨ w = 0x80000000#32 ∨ w = 0x10#32 ∨ w = 0x80#32 ∨ w = 0x100#32 →
      ∃ e, decode (State.reset.issue w).cmd = .error e := by
  rintro w (rfl | rfl | rfl | rfl | rfl | rfl | rfl) <;> exact ⟨_, rfl⟩

theorem test_witness_PermuteMovesPositions :
    (let t : Vector Nat 2 := #v[1, 64]
     (1 ≤ t[(0 : Fin 2)] ∧ t[(0 : Fin 2)] ≤ 64) ∧ (1 ≤ t[(1 : Fin 2)] ∧ t[(1 : Fin 2)] ≤ 64)) ∧
    (desTables.ip[(39 : Fin 64)] = 1 ∧ desTables.ip[(24 : Fin 64)] = 64) ∧
    (desTables.fp[(57 : Fin 64)] = 1 ∧ desTables.fp[(6 : Fin 64)] = 64) ∧
    (desTables.e[(1 : Fin 48)] = 1 ∧ desTables.e[(0 : Fin 48)] = 32) ∧
    (desTables.p[(8 : Fin 32)] = 1 ∧ desTables.p[(20 : Fin 32)] = 32) ∧
    (desTables.pc1[(7 : Fin 56)] = 1 ∧ ∀ j : Fin 56, 1 ≤ desTables.pc1[j] ∧ desTables.pc1[j] ≤ 64) ∧
    (desTables.pc2[(4 : Fin 48)] = 1 ∧ ∀ j : Fin 48, 1 ≤ desTables.pc2[j] ∧ desTables.pc2[j] ≤ 56) := by decide +kernel

/-- The hypothesis on the tables of FinalPermutationInvertsInitial, SboxLaneLooksUpRowAndColumn and EngineInvolution. -/
theorem test_witness_tables : desTables.wf = true := test_wf_default_tables

/-- R202 (a): the two keys of the rule. -/
theorem test_witness_ParityBitsDoNotMatter :
    0x133457799BBCDFF1#64 &&& 0xFEFEFEFEFEFEFEFE#64 = 0x123456789ABCDEF0#64 &&& 0xFEFEFEFEFEFEFEFE#64 := by decide

/-- R202 (b): keys of all four kinds. -/
theorem test_witness_WeakKeysGiveEqualRoundKeys :
    ((pc1 desTables 0x0101010101010101#64).extractLsb' 28 28 = 0 ∧
      (pc1 desTables 0x0101010101010101#64).extractLsb' 0 28 = 0) ∧
    ((pc1 desTables 0xFEFEFEFEFEFEFEFE#64).extractLsb' 28 28 = 0xFFFFFFF#28 ∧
      (pc1 desTables 0xFEFEFEFEFEFEFEFE#64).extractLsb' 0 28 = 0xFFFFFFF#28) ∧
    ((pc1 desTables 0x1F1F1F1F0E0E0E0E#64).extractLsb' 28 28 = 0 ∧
      (pc1 desTables 0x1F1F1F1F0E0E0E0E#64).extractLsb' 0 28 = 0xFFFFFFF#28) ∧
    ((pc1 desTables 0xE0E0E0E0F1F1F1F1#64).extractLsb' 28 28 = 0xFFFFFFF#28 ∧
      (pc1 desTables 0xE0E0E0E0F1F1F1F1#64).extractLsb' 0 28 = 0) := by
  decide +kernel

/-- Lengths 0, 1, 7, 8, 9 and MAX_LEN = 64. -/
theorem test_witness_CtsEncWritesCiphertext :
    ∀ n ∈ [0, 1, 7, 8, 9, 64], (load (letters n) n 0).len.toNat = n ∧
      (load (letters n) n 0).len.toNat ≤ (load (letters n) n 0).params.maxLen.val ∧
      InWritten (load (letters n) n 0) (load (letters n) n 0).len.toNat := by decide +kernel

/-- The three ways to be accepted, at their ends: full blocks, short, general. -/
theorem test_witness_CtsDecWritesPlaintext :
    ∀ q ∈ [(0, 0), (8, 8), (64, 64), (8, 1), (8, 7), (9, 9), (63, 63)],
      (load (letters q.1) q.1 q.2).len.toNat ≤ (load (letters q.1) q.1 q.2).params.maxLen.val ∧
      (load (letters q.1) q.1 q.2).plen.toNat ≤ (load (letters q.1) q.1 q.2).params.maxLen.val ∧
      AcceptedPair (load (letters q.1) q.1 q.2).len.toNat (load (letters q.1) q.1 q.2).plen.toNat ∧
      InWritten (load (letters q.1) q.1 q.2) (load (letters q.1) q.1 q.2).len.toNat := by decide +kernel

theorem test_witness_LenRangeWritesOnlyStatus :
    (load [] 65 0).params.maxLen.val < (load [] 65 0).len.toNat ∧
    (load [] 0 65).params.maxLen.val < (load [] 0 65).plen.toNat ∧
    (load [] 4294967295 0).params.maxLen.val < (load [] 4294967295 0).len.toNat := by decide +kernel

/-- R262's refused pairs, and pairs beside the accepted ones. -/
theorem test_witness_DecLengthWritesOnlyStatus :
    ∀ q ∈ [(3, 3), (16, 3), (8, 0), (0, 8), (9, 1), (10, 9), (64, 63), (7, 7)],
      (load [] q.1 q.2).len.toNat ≤ (load [] q.1 q.2).params.maxLen.val ∧
      (load [] q.1 q.2).plen.toNat ≤ (load [] q.1 q.2).params.maxLen.val ∧
      ¬ AcceptedPair (load [] q.1 q.2).len.toNat (load [] q.1 q.2).plen.toNat := by decide +kernel

/-- The last byte of the message unwritten, at MAX_LEN and in an accepted short pair. -/
theorem test_witness_UnwrittenInputFaults :
    ∀ q ∈ [(64, 64), (8, 7), (1, 0)],
      (load (letters (q.1 - 1)) q.1 q.2).len.toNat ≤ (load (letters (q.1 - 1)) q.1 q.2).params.maxLen.val ∧
      (∃ a, a < (load (letters (q.1 - 1)) q.1 q.2).len.toNat ∧ (load (letters (q.1 - 1)) q.1 q.2).inBuf.read a = none) ∧
      (q.1 ≠ 1 → (load (letters (q.1 - 1)) q.1 q.2).plen.toNat ≤ (load (letters (q.1 - 1)) q.1 q.2).params.maxLen.val ∧
        AcceptedPair (load (letters (q.1 - 1)) q.1 q.2).len.toNat (load (letters (q.1 - 1)) q.1 q.2).plen.toNat) := by
  decide +kernel

/-- Each clause: a completion with that code. -/
theorem test_witness_ErrorCodeAndPriority :
    after (engineStep (State.reset.issue 0x5#32)) (fun t => t.err == 1#4) = true ∧
    after (engineStep (State.reset.issue 0x0#32)) (fun t => t.err == 0#4) = true ∧
    after (engineStep (State.reset.issue 0x1#32)) (fun t => t.err == 0#4) = true ∧
    after (engineStep (State.reset.issue 0x2#32)) (fun t => t.err == 0#4) = true ∧
    after (engineStep ((load [] 65 0).issue 0x3#32)) (fun t => t.err == 2#4) = true ∧
    after (engineStep ((load (letters 64) 64 0).issue 0x3#32)) (fun t => t.err == 0#4) = true ∧
    after (engineStep ((load [] 0 65).issue 0x4#32)) (fun t => t.err == 2#4) = true ∧
    after (engineStep ((load [] 16 3).issue 0x4#32)) (fun t => t.err == 3#4) = true ∧
    after (engineStep ((load (letters 8) 8 7).issue 0x4#32)) (fun t => t.err == 0#4) = true := by decide +kernel

theorem test_witness_ErrorsArePrecise :
    ∃ t, engineStep ((load [] 16 3).issue 0x4#32) = .next t ∧ t.err ≠ 0#4 := by
  obtain ⟨t, h, hc⟩ := next_of_after (r := engineStep ((load [] 16 3).issue 0x4#32))
    (check := fun t => decide (t.err ≠ 0#4)) (by decide +kernel)
  exact ⟨t, h, of_decide_eq_true hc⟩

/-- Both commands, with a next state (an error and a success) and with a fault. -/
theorem test_witness_ModeCommandsNeverReadRk :
    after (exec .ctsEnc (load [] 65 0)) (fun t => t.err == 2#4) = true ∧
    after (exec .ctsEnc (load (letters 9) 9 0)) (fun t => t.err == 0#4) = true ∧
    after (exec .ctsDec (load (letters 9) 9 9)) (fun t => t.err == 0#4) = true ∧
    faultOf (exec .ctsEnc (load [] 1 0)) = some .unwrittenInput ∧
    faultOf (exec .ctsDec (load [] 8 8)) = some .unwrittenInput := by decide +kernel

/-- The lengths the path statements assume, at their ends. -/
theorem test_witness_message_lengths :
    (letters 0).length = 8 * 0 ∧ (letters 8).length = 8 * 1 ∧ (letters 16).length = 8 * 2 ∧
    (1 ≤ (letters 1).length ∧ (letters 7).length ≤ 7) ∧
    (letters 9).length = 8 * 1 + 1 ∧ (letters 15).length = 8 * 1 + 7 ∧ (letters 17).length = 8 * 2 + 1 ∧
    (letters 9).length = 8 * 0 + (8 + 1) ∧ (letters 15).length = 8 * 0 + (8 + 7) ∧
    (letters 20).length = 8 * 1 + (8 + 4) := by decide

/-- Plaintexts of 0, 3, 9 and MAX_LEN bytes. -/
theorem test_witness_ModeRoundTrip :
    (∀ n : Nat, (load (letters n) n 0).params.tables.wf = true) ∧ ∀ n ∈ [0, 3, 9, 64],
      (letters n).length ≤ (load (letters n) n 0).params.maxLen.val ∧
      (load (letters n) n 0).len.toNat = (letters n).length ∧
      (∀ a, a < (letters n).length → (load (letters n) n 0).inBuf.read a = (letters n)[a]?) :=
  ⟨fun _ => desTables_wf, by decide +kernel⟩

/-- The second state of ModeRoundTrip: OUT copied to IN, LEN = OUT_LEN, PLEN = 3. -/
theorem test_witness_ModeRoundTrip_second :
    let s := load (letters 3) 3 0
    ∃ t u : State, exec .ctsEnc s = .next t ∧ u.params = s.params ∧ u.key = s.key ∧ u.iv = s.iv ∧ u.len = t.outLen ∧
      u.plen.toNat = (letters 3).length ∧ (∀ a, a < t.outLen.toNat → u.inBuf.read a = t.outBuf.read a) := by
  obtain ⟨t, h, -⟩ := next_of_after (r := exec .ctsEnc (load (letters 3) 3 0)) (check := fun _ => true) (by decide +kernel)
  exact ⟨t, { load (letters 3) 3 3 with inBuf := t.outBuf, len := t.outLen }, h, rfl, rfl, rfl, rfl, rfl, fun _ _ => rfl⟩

/-- The premises of BytesPackBigEndian, at both ends, and a sequence of 8 bytes. -/
theorem test_witness_BytesPackBigEndian : (0 < 8 ∧ 7 < 8) ∧ (letters 8).length = 8 := by decide

/-- R14: a block whose bytes all differ. -/
theorem test_unpack8 :
    unpack8 0x4142434445464748#64 = letters 8 ∧ pack8 (letters 8) = 0x4142434445464748#64 := by decide

/-- A register access while BUSY = 0, and one while BUSY = 1; the ends of the numbers the clauses name. -/
theorem test_witness_register_accesses :
    State.reset.busy = false ∧ (State.reset.issue 0x2#32).busy = true ∧
    (0x10#8).toNat = 0x10 + (0 : Fin 16).val ∧ (0x1F#8).toNat = 0x10 + (15 : Fin 16).val ∧
    (0x09 ≤ (0x09#8).toNat ∧ (0x0F#8).toNat ≤ 0x0F) ∧ 0x20 ≤ (0x20#8).toNat ∧ 0x20 ≤ (0xFF#8).toNat ∧
    regOf 0x0F#8 = .reserved ∧ regOf 0x10#8 = .rk 0 ∧ regOf 0x1F#8 = .rk 15 ∧ regOf 0x20#8 = .reserved := by decide

/-- The clauses of InWriteWritesOneByte, InReadReturnsByte and OutReadReturnsByte at indices 63 and 64. -/
theorem test_witness_buffer_accesses :
    63 < State.reset.params.maxLen.val ∧ State.reset.params.maxLen.val ≤ 64 ∧ State.reset.busy = false ∧
    (load (letters 64) 64 0).inBuf.read 63 = some 0x80#8 ∧ State.reset.inBuf.read 63 = none ∧
    encrypted.outBuf.read 7 = some 0x48#8 ∧ encrypted.outBuf.read 8 = none ∧ encrypted.busy = false ∧
    (encrypted.issue 0x2#32).busy = true := by decide +kernel

/-- The premises of OnlyCmdWriteHasSideEffect: a read, and writes other than to CMD. -/
theorem test_witness_OnlyCmdWriteHasSideEffect :
    after (hostAccess (.regRead 0x01#8) encrypted) (fun _ => true) = true ∧ (HostAction.regRead 0x01#8).isRead = true ∧
    after (hostAccess (.regWrite 0x02#8 7#64) encrypted) (fun _ => true) = true ∧
    after (hostAccess (.inWrite 64 7#8) encrypted) (fun _ => true) = true := by decide +kernel

end Sys2Proof.Tests
end

section
/-! Proofs of the statements of 00_scope.md: the packing of bytes into blocks (R14) and the moving of bits by a table
(R15). -/

namespace Sys2Proof.Machine

/-! ### Packing of bytes (R14) -/

/-- R14: byte k of `unpack8 v` is `v[63-8k:56-8k]`. -/
theorem unpack8_getElem? (v : Block) {k : Nat} (hk : k < 8) :
    (unpack8 v)[k]? = some (v.extractLsb' (56 - 8 * k) 8) := by
  interval_cases k <;> rfl

/-- Counted from the most significant, bit i of byte k is bit 8k + i of the block (R12, R14). -/
theorem unpack8_getD_getMsbD (v : Block) {k i : Nat} (hk : k < 8) (hi : i < 8) :
    ((unpack8 v).getD k 0).getMsbD i = v.getMsbD (8 * k + i) := by
  have hpos : 56 - 8 * k + (8 - 1 - i) = 64 - 1 - (8 * k + i) := by omega
  have hrange : 8 * k + i < 64 := by omega
  have hbit : 8 - 1 - i < 8 := by omega
  rw [List.getD_eq_getElem?_getD, unpack8_getElem? v hk, Option.getD_some, BitVec.getMsbD_eq_getLsbD,
    BitVec.getMsbD_eq_getLsbD, BitVec.getLsbD_extractLsb', hpos]
  simp only [hi, hbit, hrange, decide_true, Bool.true_and]

/-- Settles O60: the bytes by position, then by bit, and the two inversions proved with the model. -/
theorem bytesPackBigEndian : Obligations.BytesPackBigEndian :=
  ⟨fun v => ⟨unpack8_length v, fun _ hk => unpack8_getElem? v hk⟩,
    fun v _ _ hk hi => unpack8_getD_getMsbD v hk hi,
    pack8_unpack8, fun _ hs => unpack8_pack8 hs, by decide, by decide⟩

/-! ### Moving of bits by a table (R15) -/

/-- R15 with the input position as a bit number (R12): position T[j] of an n-bit value is bit n - T[j]. -/
theorem permute_getMsbD_eq_getLsbD {n m : Nat} (t : Vector Nat m) (x : BitVec n) (j : Fin m) (hlo : 1 ≤ t[j])
    (hhi : t[j] ≤ n) : (permute t x).getMsbD j = x.getLsbD (n - t[j]) := by
  have hin : t[j] - 1 < n := by omega
  have hbit : n - 1 - (t[j] - 1) = n - t[j] := by omega
  calc (permute t x).getMsbD j
      _ = x.getMsbD (t[j] - 1) := permute_getMsbD t x j j.isLt
      _ = x.getLsbD (n - t[j]) := by simp only [BitVec.getMsbD_eq_getLsbD, hin, hbit, decide_true, Bool.true_and]

/-- Settles O23: each unit is `permute` with its own table, so the law of `permute` is the law of the unit; the examples of
R180 to R185 are evaluated. -/
theorem permuteMovesPositions : Obligations.PermuteMovesPositions :=
  ⟨fun _ _ => permute_getMsbD_eq_getLsbD,
    fun t => permute_getMsbD_eq_getLsbD t.ip, fun t => permute_getMsbD_eq_getLsbD t.fp,
    fun t => permute_getMsbD_eq_getLsbD t.e, fun t => permute_getMsbD_eq_getLsbD t.p,
    fun t => permute_getMsbD_eq_getLsbD t.pc1, fun t => permute_getMsbD_eq_getLsbD t.pc2,
    by decide +kernel, by decide +kernel, by decide +kernel, by decide +kernel, by decide +kernel, by decide +kernel⟩

end Sys2Proof.Machine
end

section
/-! Proofs of the statements of 10_state.md: the layout of STATUS, the invariant, and what alone changes a parameter, STATUS,
an operand or a result. All but the layout are read off one inversion of the step (`step_next`) and one of the engine's step
(`engineStep_next`). -/

namespace Sys2Proof.Machine

/-! ### Register writes, field by field (43_host_interface.md R302, R303) -/

@[simp] theorem writeReg_params (s : State) (v : Block) (r : Reg) : (writeReg s v r).params = s.params := by cases r <;> rfl
@[simp] theorem writeReg_blkOut (s : State) (v : Block) (r : Reg) : (writeReg s v r).blkOut = s.blkOut := by cases r <;> rfl
@[simp] theorem writeReg_outLen (s : State) (v : Block) (r : Reg) : (writeReg s v r).outLen = s.outLen := by cases r <;> rfl
@[simp] theorem writeReg_inBuf (s : State) (v : Block) (r : Reg) : (writeReg s v r).inBuf = s.inBuf := by cases r <;> rfl
@[simp] theorem writeReg_outBuf (s : State) (v : Block) (r : Reg) : (writeReg s v r).outBuf = s.outBuf := by cases r <;> rfl

@[simp] theorem writeReg_cmd (s : State) (v : Block) (r : Reg) :
    (writeReg s v r).cmd = if r = .cmd then v.setWidth 32 else s.cmd := by cases r <;> rfl
@[simp] theorem writeReg_key (s : State) (v : Block) (r : Reg) :
    (writeReg s v r).key = if r = .key then v else s.key := by cases r <;> rfl
@[simp] theorem writeReg_iv (s : State) (v : Block) (r : Reg) :
    (writeReg s v r).iv = if r = .iv then v else s.iv := by cases r <;> rfl
@[simp] theorem writeReg_blkIn (s : State) (v : Block) (r : Reg) :
    (writeReg s v r).blkIn = if r = .blkIn then v else s.blkIn := by cases r <;> rfl
@[simp] theorem writeReg_len (s : State) (v : Block) (r : Reg) :
    (writeReg s v r).len = if r = .len then v.setWidth 32 else s.len := by cases r <;> rfl
@[simp] theorem writeReg_plen (s : State) (v : Block) (r : Reg) :
    (writeReg s v r).plen = if r = .plen then v.setWidth 32 else s.plen := by cases r <;> rfl

/-- A register write changes RK[i] only where it is a write of RK[i] (R43). -/
theorem writeReg_rk_of_ne (s : State) (v : Block) {r : Reg} {i : Fin 16} (h : r ≠ .rk i) :
    (writeReg s v r).rk[i] = s.rk[i] := by
  cases r with
  | rk j =>
    have hji : j.val ≠ i.val := fun hv => h (congrArg Reg.rk (Fin.ext hv))
    simp [writeReg, hji]
  | _ => rfl

/-- A register write other than an issue leaves STATUS alone (R79, R303). -/
theorem writeReg_statusKept (s : State) (v : Block) {r : Reg} (h : r ≠ .cmd) : StatusKept s (writeReg s v r) := by
  cases r with
  | cmd => exact absurd rfl h
  | _ => exact ⟨rfl, rfl, rfl⟩

/-- A named register is reached by its one number (R55), checked number by number. -/
theorem regNum_regOf : ∀ n : BitVec 8, regOf n ≠ .reserved → regNum (regOf n) = n := by decide +kernel

theorem eq_regNum_of_regOf {n : BitVec 8} {r : Reg} (h : regOf n = r) (hr : r ≠ .reserved) : n = regNum r := by
  subst h
  exact (regNum_regOf n hr).symm

/-! ### What a step can do, said once -/

/-- What a completed engine step leaves: which result is written, and by which command (43_host_interface.md R304). -/
inductive Completion (s : State) : State → Prop where
  /-- NOP, or an error: STATUS alone. -/
  | statusOnly (code : ErrCode) : Completion s (s.complete code)
  /-- DERIVE. -/
  | derive (rev : Bool) (hd : decode s.cmd = .ok (.derive rev)) :
      Completion s (State.complete { s with rk := deriveRoundKeys s.params.tables s.key rev } .ok)
  /-- XFORM. -/
  | xform (hd : decode s.cmd = .ok .xform) :
      Completion s (State.complete { s with blkOut := transformBlock s.params.tables s.blkIn s.rk } .ok)
  /-- CTS_ENC or CTS_DEC: the emitted bytes fit in OUT, and OUT_LEN counts them. -/
  | emit (bytes : List Byte) (ks : Vector RoundKey 16) (hfit : bytes.length ≤ s.params.maxLen.val)
      (hd : decode s.cmd = .ok .ctsEnc ∨ decode s.cmd = .ok .ctsDec) :
      Completion s ((s.emit bytes bytes.length ks).complete .ok)

/-- The output of CTS_ENC fits where its message does: MAX_LEN is at least one block (00_scope.md R11). -/
theorem encOutLen_le {n : Nat} {cap : Capacity} (h : n ≤ cap.val) : encOutLen n ≤ cap.val := by
  have h8 := cap.property.1
  rw [encOutLen_eq]
  split
  · omega
  · split <;> omega

/-- Every engine step to a next state is a completion. -/
theorem engineStep_next {s t : State} (h : engineStep s = .next t) : Completion s t := by
  rcases engineStep_cases s with ⟨-, he⟩ | ⟨i, hd, he⟩ <;> rw [he] at h
  · cases h; exact .statusOnly _
  cases i with
  | nop => cases h; exact .statusOnly _
  | derive rev => cases h; exact .derive rev hd
  | xform => cases h; exact .xform hd
  | ctsEnc =>
    rcases exec_ctsEnc_cases s with ⟨-, hx⟩ | ⟨-, -, hx⟩ | ⟨msg, hlen, hmsg, hx⟩ <;> rw [hx] at h <;> cases h
    · exact .statusOnly _
    · have hn : (cbcCtsEncrypt s.params.tables s.key s.iv msg).length = encOutLen s.len.toNat := by
        rw [cbcCtsEncrypt, encBytes_length, (inputMessage_eq_some.mp hmsg).1]
      rw [← hn]
      exact .emit _ _ (hn ▸ encOutLen_le hlen) (.inl hd)
  | ctsDec =>
    rcases exec_ctsDec_cases s with ⟨-, hx⟩ | ⟨-, hplen, ⟨-, hx⟩ | ⟨-, -, hx⟩ | ⟨msg, hacc, hmsg, hx⟩⟩ <;>
      rw [hx] at h <;> cases h
    · exact .statusOnly _
    · exact .statusOnly _
    · have hn : (cbcCtsDecrypt s.params.tables s.key s.iv msg s.plen.toNat).length = s.plen.toNat := by
        refine decBytes_length _ _ _ _ ?_
        rw [(inputMessage_eq_some.mp hmsg).1]
        exact (decAccepts_iff _ _).mp hacc
      rw [← hn] at hplen
      have hc := Completion.emit _ (deriveRoundKeys s.params.tables s.key true) hplen (.inr hd)
      rwa [hn] at hc

/-- A completion writes no operand (R31, R36 to R41, R44). -/
theorem Completion.operandsKept {s t : State} (h : Completion s t) : OperandsKept s t := by
  cases h <;> exact ⟨rfl, rfl, rfl, rfl, rfl, rfl, rfl, fun _ => rfl⟩

/-- Everything a step to a next state can do. -/
inductive Stepped (s : State) : State → Prop where
  /-- A register write at BUSY = 0. -/
  | regWrite (n : BitVec 8) (v : Block) (rest : List Event) (ha : s.agenda = .host (.regWrite n v) :: rest)
      (hb : s.busy = false) : Stepped s (writeReg { s.withAgenda rest with reply := none } v (regOf n))
  /-- A byte of IN written at BUSY = 0. -/
  | inWrite (a : Nat) (b : Byte) (rest : List Event) (ha : s.agenda = .host (.inWrite a b) :: rest)
      (hb : s.busy = false) (hlt : a < s.params.maxLen.val) :
      Stepped s { s.withAgenda rest with reply := none, inBuf := s.inBuf.write a b }
  /-- The engine's own step. -/
  | engine (rest : List Event) (hn : s.engineNext) (hb : s.busy = true) {t : State} (hc : Completion (s.withAgenda rest) t) :
      Stepped s t
  /-- The reset input. -/
  | reset (rest : List Event) (ha : s.agenda = .reset :: rest) : Stepped s (s.withAgenda rest).assertReset
  /-- A read, an ignored write, a turn that passes or a recorded fault: the model's own fields and the fault alone. -/
  | quiet (rest : List Event) (reply : Option Block) (draws : Nat) (fault : Option Fault)
      (hf : s.faulted ≠ none → fault ≠ none) :
      Stepped s { s.withAgenda rest with reply := reply, draws := draws, faulted := fault }

/-- A step that faults records the fault and nothing else (60_exceptions.md R351). -/
theorem stepped_of_fault (s : State) (rest : List Event) (f : Fault) :
    Stepped s { s.withAgenda rest with faulted := some f } :=
  .quiet rest s.reply s.draws (some f) fun _ => nofun

/-- A host access next on the agenda, performed. -/
theorem stepped_of_hostAccess {s t : State} {a : HostAction} {rest : List Event} (ha : s.agenda = .host a :: rest)
    (h : hostAccess a (s.withAgenda rest) = .next t) : Stepped s t := by
  rcases hostAccess_next h with ⟨n, v, rfl, hb, rfl⟩ | ⟨i, b, rfl, hb, hlt, rfl⟩ | ⟨_, _, -, -, -, rfl⟩ | ⟨-, v, k, rfl⟩
  · exact .regWrite n v rest ha hb
  · exact .inWrite i b rest ha hb hlt
  · exact .quiet rest none s.draws s.faulted id
  · exact .quiet rest (some v) (s.draws + k) s.faulted id

/-- The engine's turn at BUSY = 1, taken. -/
theorem stepped_of_engineStep {s t : State} {rest : List Event} (hn : s.engineNext) (hb : s.busy = true)
    (h : recordFault (s.withAgenda rest) (engineStep (s.withAgenda rest)) = .next t) : Stepped s t := by
  rcases recordFault_eq_next h with h | ⟨f, -, rfl⟩
  · exact .engine rest hn hb (engineStep_next h)
  · exact stepped_of_fault s rest f

/-- Every step to a next state is one of these. -/
theorem step_next {s t : State} (h : step s = .next t) : Stepped s t := by
  obtain ⟨-, -, hadv⟩ := step_eq_next h
  generalize ho : advance s = o at hadv
  have hm : Move s o := ho ▸ advance_move s
  cases hm with
  | host a rest ha =>
    rcases recordFault_eq_next hadv with h | ⟨f, -, rfl⟩
    · exact stepped_of_hostAccess ha h
    · exact stepped_of_fault s rest f
  | engine rest ha hb => exact stepped_of_engineStep (.inr ⟨rest, ha⟩) hb hadv
  | pending ha hb => exact stepped_of_engineStep (rest := s.agenda) (.inl ha) hb hadv
  | reset rest ha => cases hadv; exact .reset rest ha
  | pass rest _ _ => cases hadv; exact .quiet rest s.reply s.draws s.faulted id
  | idle _ _ => cases hadv; exact .quiet s.agenda s.reply s.draws s.faulted id

/-! ### The invariant -/

/-- The reset state meets the invariant, whatever the parameters. -/
theorem State.resetFor_inv (p : Params) : (State.resetFor p).Inv where
  inWf := .nil
  outWf := .nil
  inWithin := nofun
  outWithin := nofun
  notBoth := nofun
  errLegal := Nat.zero_le _
  errDone := fun h => absurd rfl h
  outLenMax := Nat.zero_le _
  outWritten := nofun
  badFaulted := fun hw hf => nomatch hf.symm.trans (configFault_of_bad hw)

/-- The reset input leaves a state that meets the invariant, whatever it found. -/
theorem State.assertReset_inv (s : State) : s.assertReset.Inv := { State.resetFor_inv s.params with }

theorem State.Inv.issue {s : State} (h : s.Inv) (w : Word) : (s.issue w).Inv :=
  { h with notBoth := nofun, errLegal := Nat.zero_le _, errDone := fun he => absurd rfl he }

/-- A completion sets DONE and a legal code (R33, R34). -/
theorem State.Inv.complete {s : State} (h : s.Inv) (code : ErrCode) : (s.complete code).Inv :=
  { h with notBoth := nofun, errLegal := by cases code <;> exact Nat.le_of_ble_eq_true rfl, errDone := fun _ => rfl }

theorem State.Inv.withAgenda {s : State} (h : s.Inv) (rest : List Event) : (s.withAgenda rest).Inv := { h with }

theorem State.Inv.writeReg {s : State} (h : s.Inv) (v : Block) (r : Reg) : (writeReg s v r).Inv := by
  cases r with
  | cmd => exact h.issue _
  | _ => exact { h with }

/-- A byte written below MAX_LEN keeps IN canonical and within its capacity (R44). -/
theorem State.Inv.inWrite {s : State} (h : s.Inv) {a : Nat} (b : Byte) (hlt : a < s.params.maxLen.val) :
    State.Inv { s with inBuf := s.inBuf.write a b } :=
  { h with
    inWf := Memory.write_wf a b h.inWf
    inWithin := fun c hc => by
      rcases Memory.mem_write hc with rfl | hc
      · exact hlt
      · exact h.inWithin c hc }

/-- Bytes that fit in OUT, with OUT_LEN their number, keep OUT canonical, within its capacity, and written up to OUT_LEN
(R42, R45). -/
theorem State.Inv.emit {s : State} (h : s.Inv) {bytes : List Byte} (ks : Vector RoundKey 16)
    (hfit : bytes.length ≤ s.params.maxLen.val) : (s.emit bytes bytes.length ks).Inv := by
  have hword : (s.emit bytes bytes.length ks).outLen.toNat = bytes.length := by
    have hcap := s.params.maxLen.property.2
    simpa using (show bytes.length < 4294967296 by omega)
  exact
    { h with
      outWf := Memory.writeBytes_wf 0 bytes h.outWf
      outWithin := fun c hc => by
        rcases Memory.mem_writeBytes hc with hc | hc
        · show c.1 < s.params.maxLen.val
          omega
        · exact h.outWithin c hc
      outLenMax := hword.trans_le hfit
      outWritten := fun a ha => by
        have hlt : a < bytes.length := hword ▸ ha
        simp [Memory.read_writeBytes, hlt] }

/-- Whatever a command or an error completes with, the invariant survives. -/
theorem State.Inv.completion {s t : State} (h : s.Inv) (hc : Completion s t) : t.Inv := by
  cases hc with
  | statusOnly code => exact h.complete code
  | derive rev _ =>
    have hrk : State.Inv { s with rk := deriveRoundKeys s.params.tables s.key rev } := { h with }
    exact hrk.complete .ok
  | xform _ =>
    have hblk : State.Inv { s with blkOut := transformBlock s.params.tables s.blkIn s.rk } := { h with }
    exact hblk.complete .ok
  | emit bytes ks hfit _ => exact (h.emit ks hfit).complete .ok

/-- Settles O11, case by case over what a step can do. -/
theorem stepKeepsTheInvariant : Obligations.StepKeepsTheInvariant := by
  intro s t h hst
  cases step_next hst with
  | regWrite n v rest _ _ =>
    have hbus : State.Inv { s.withAgenda rest with reply := none } := { h with }
    exact hbus.writeReg v (regOf n)
  | inWrite a b rest _ _ hlt =>
    have hw := h.inWrite b hlt
    exact { hw with }
  | engine rest _ _ hc => exact (h.withAgenda rest).completion hc
  | reset rest _ => exact State.assertReset_inv _
  | quiet rest reply draws fault hf => exact { h with badFaulted := fun hw => hf (h.badFaulted hw) }

/-! ### What alone changes a field -/

/-- Settles O9: register writes and completions keep the parameters, and so does every other move, by its form. -/
theorem parametersNeverChange : Obligations.ParametersNeverChange := by
  refine ⟨fun s t h => ?_, fun i s t h => ?_, fun a s t h => ?_⟩
  · cases step_next h with
    | regWrite n v rest _ _ => exact writeReg_params _ v (regOf n)
    | engine rest _ _ hc => exact hc.operandsKept.params
    | _ => rfl
  · obtain ⟨-, -, hops, -⟩ := exec_next_frame h
    exact hops.params
  · rcases hostAccess_next h with ⟨n, v, -, -, rfl⟩ | ⟨_, _, -, -, -, rfl⟩ | ⟨_, _, -, -, -, rfl⟩ | ⟨-, _, _, rfl⟩
    · exact writeReg_params _ v (regOf n)
    all_goals rfl

/-- Settles O13: of the host's accesses only a register write is not quiet about STATUS, and only where it issues. -/
theorem statusChangesOnlyByIssueCompletionReset : Obligations.StatusChangesOnlyByIssueCompletionReset := by
  intro s t h hchanged
  cases step_next h with
  | regWrite n v rest ha hb =>
    by_cases hr : regOf n = .cmd
    · rw [eq_regNum_of_regOf hr nofun] at ha
      exact .inl ⟨v, rest, ha, hb⟩
    · have hkept := writeReg_statusKept { s.withAgenda rest with reply := none } v hr
      exact absurd { hkept with } hchanged
  | engine rest hn hb _ => exact .inr (.inl ⟨hn, hb⟩)
  | reset rest ha => exact .inr (.inr ⟨rest, ha⟩)
  | _ => exact absurd ⟨rfl, rfl, rfl⟩ hchanged

/-- Settles O14: the engine writes no operand, and a host write reaches the register its number names, or its one byte. -/
theorem operandsChangeOnlyByHostOrReset : Obligations.OperandsChangeOnlyByHostOrReset := by
  intro s t h hreset
  cases step_next h with
  | regWrite n v rest ha _ =>
    have hnum {r : Reg} (hr : regOf n = r) (hne : r ≠ .reserved) :
        ∃ v rest, s.agenda = .host (.regWrite (regNum r) v) :: rest :=
      ⟨v, rest, by rw [ha, eq_regNum_of_regOf hr hne]⟩
    simp only [writeReg_cmd, writeReg_key, writeReg_iv, writeReg_blkIn, writeReg_len, writeReg_plen, writeReg_inBuf,
      State.withAgenda_cmd, State.withAgenda_key, State.withAgenda_iv, State.withAgenda_blkIn, State.withAgenda_len,
      State.withAgenda_plen, State.withAgenda_inBuf, ite_ne_right_iff]
    exact ⟨fun hc => hnum hc.1 nofun, fun hc => hnum hc.1 nofun, fun hc => hnum hc.1 nofun, fun hc => hnum hc.1 nofun,
      fun hc => hnum hc.1 nofun, fun hc => hnum hc.1 nofun, fun _ => absurd rfl⟩
  | inWrite a b rest ha _ _ =>
    refine ⟨absurd rfl, absurd rfl, absurd rfl, absurd rfl, absurd rfl, absurd rfl, fun x hc => ?_⟩
    obtain rfl : x = a := by_contra fun hx => hc (Memory.read_write_other s.inBuf b hx)
    exact ⟨b, rest, ha⟩
  | engine rest _ _ hc =>
    obtain ⟨-, hcmd, hkey, hiv, hblkIn, hlen, hplen, hin⟩ := hc.operandsKept
    exact ⟨absurd hcmd, absurd hkey, absurd hiv, absurd hblkIn, absurd hlen, absurd hplen, fun a => absurd (hin a)⟩
  | reset rest ha => exact absurd ha (hreset rest)
  | quiet =>
    exact ⟨absurd rfl, absurd rfl, absurd rfl, absurd rfl, absurd rfl, absurd rfl, fun _ => absurd rfl⟩

/-- Settles O15: the engine's step by what it completes, and of the host's accesses only the write of RK[i]. -/
theorem resultsChangeOnlyByTheirCommands : Obligations.ResultsChangeOnlyByTheirCommands := by
  intro s t h hreset
  cases step_next h with
  | regWrite n v rest ha hb =>
    refine ⟨absurd (writeReg_blkOut _ v _), absurd (writeReg_outLen _ v _),
      fun a => absurd (congrArg (·.read a) (writeReg_outBuf _ v _)), fun i hc => .inr ⟨hb, v, rest, ?_⟩⟩
    have hr : regOf n = .rk i := by_contra fun hr => hc (writeReg_rk_of_ne _ v hr)
    rw [ha, eq_regNum_of_regOf hr nofun]
    rfl
  | engine rest hn hb hc =>
    cases hc with
    | statusOnly _ => exact ⟨absurd rfl, absurd rfl, fun _ => absurd rfl, fun _ => absurd rfl⟩
    | derive rev hd =>
      exact ⟨absurd rfl, absurd rfl, fun _ => absurd rfl, fun _ _ => .inl ⟨hn, hb, .inl ⟨rev, hd⟩⟩⟩
    | xform hd => exact ⟨fun _ => ⟨hn, hb, hd⟩, absurd rfl, fun _ => absurd rfl, fun _ => absurd rfl⟩
    | emit _ _ _ hd =>
      exact ⟨absurd rfl, fun _ => ⟨hn, hb, hd⟩, fun _ _ => ⟨hn, hb, hd⟩, fun _ _ => .inl ⟨hn, hb, .inr hd⟩⟩
  | reset rest ha => exact absurd ha (hreset rest)
  | _ => exact ⟨absurd rfl, absurd rfl, fun _ => absurd rfl, fun _ => absurd rfl⟩

/-! ### The layout of STATUS (R32 to R35) -/

/-- Settles O49: bits 0 to 3 one by one, then ERR and what stands above it. -/
theorem statusLayout : Obligations.StatusLayout := by
  intro s k
  simp only [statusWord, BitVec.getLsbD_append]
  match k with
  | 0 => simp
  | 1 => simp
  | 2 => simp
  | 3 => simp
  | k + 4 =>
    by_cases hk : k < 4
    · simp [hk, Nat.le_of_lt_succ hk]
    · simp [hk, show ¬ k ≤ 3 by omega]

end Sys2Proof.Machine
end

section
/-! Proofs of the statements of 20_memory.md: reads have no side effect and do not disturb the command (R77, R78), every
access but a write to CMD is idempotent (R78), ignored writes (R79, R81), and the fault on unwritten input (R91). -/

namespace Sys2Proof.Machine

/-! ### States with the same registers, buffers and STATUS -/

/-- The parameters, STATUS, every register and every buffer byte agree; the hidden registers, the recorded fault, the bus
value, the draw counter and the agenda may differ. -/
structure State.SameView (s t : State) : Prop where
  status   : StatusKept s t
  operands : OperandsKept s t
  results  : ResultsKept s t

/-- The value on the bus and the draw counter are the model's own. -/
theorem State.sameView_bus (s : State) (reply : Option Block) (draws : Nat) :
    s.SameView { s with reply := reply, draws := draws } :=
  ⟨⟨rfl, rfl, rfl⟩, ⟨rfl, rfl, rfl, rfl, rfl, rfl, rfl, fun _ => rfl⟩, ⟨rfl, rfl, rfl, fun _ => rfl⟩⟩

theorem State.SameView.refl (s : State) : s.SameView s := s.sameView_bus s.reply s.draws

theorem State.SameView.complete {s t : State} (h : s.SameView t) (code : ErrCode) :
    (s.complete code).SameView (t.complete code) :=
  ⟨⟨rfl, rfl, rfl⟩, { h.operands with }, { h.results with }⟩

theorem State.SameView.emit {s t : State} (h : s.SameView t) (bytes : List Byte) (n : Nat) (ks : Vector RoundKey 16) :
    (s.emit bytes n ks).SameView (t.emit bytes n ks) :=
  ⟨{ h.status with }, { h.operands with },
    { blkOut := h.results.blkOut
      outLen := rfl
      rk := rfl
      outRead := fun a => by simp only [State.emit_outBuf, Memory.read_writeBytes, h.results.outRead] }⟩

/-! ### The input message (R91) -/

/-- A multi-byte read depends on the bytes of the buffer alone. -/
theorem Memory.readBytes_congr {m m' : Memory} (h : ∀ a, m'.read a = m.read a) (a n : Nat) :
    m'.readBytes a n = m.readBytes a n := by
  induction n generalizing a with
  | zero => rfl
  | succ n ih => simp only [Memory.readBytes, h, ih]

theorem State.SameView.inputMessage_eq {s t : State} (h : s.SameView t) (n : Nat) :
    inputMessage t n = inputMessage s n :=
  Memory.readBytes_congr h.operands.inRead 0 n

/-- There is no input message exactly where one of its bytes is unwritten. -/
theorem inputMessage_eq_none {s : State} {n : Nat} : inputMessage s n = none ↔ ∃ a, a < n ∧ s.inBuf.read a = none := by
  simpa [inputMessage] using Memory.readBytes_eq_none (m := s.inBuf) (a := 0) (n := n)

/-- Settles O37: with no input message, the checks that pass leave the fault as the only outcome. -/
theorem unwrittenInputFaults : Obligations.UnwrittenInputFaults := by
  intro s hlen hgap
  have hnone : inputMessage s s.len.toNat = none := inputMessage_eq_none.mpr hgap
  constructor
  · rcases exec_ctsEnc_cases s with ⟨hover, -⟩ | ⟨-, -, hfault⟩ | ⟨msg, -, hmsg, -⟩
    · omega
    · exact hfault
    · exact nomatch hnone.symm.trans hmsg
  · intro hplen hpair
    have hacc : decAccepts s.len.toNat s.plen.toNat = true := (decAccepts_iff _ _).mpr hpair
    rcases exec_ctsDec_cases s with ⟨hover, -⟩ | ⟨-, -, ⟨hrej, -⟩ | ⟨-, -, hfault⟩ | ⟨msg, -, hmsg, -⟩⟩
    · omega
    · exact nomatch hacc.symm.trans hrej
    · exact hfault
    · exact nomatch hnone.symm.trans hmsg

/-! ### Commands depend on nothing outside the view -/

/-- The same fault, or next states with the same view. -/
inductive SameOutcome : Result → Result → Prop where
  | next {t u : State} (h : t.SameView u) : SameOutcome (.next t) (.next u)
  | fault (f : Fault) : SameOutcome (.fault f) (.fault f)

theorem SameOutcome.of_next {t : State} {o : Result} (h : SameOutcome (.next t) o) : ∃ u, o = .next u ∧ t.SameView u := by
  cases h with
  | next hv => exact ⟨_, rfl, hv⟩

theorem SameOutcome.of_fault {f : Fault} {o : Result} (h : SameOutcome (.fault f) o) : o = .fault f := by
  cases h with
  | fault => rfl

/-- A command's outcome is a matter of the registers and the buffers it is run on. -/
theorem State.SameView.sameOutcome_exec {s t : State} (h : s.SameView t) (i : Instr) : SameOutcome (exec i s) (exec i t) := by
  obtain ⟨hparams, -, hkey, hiv, hblkIn, hlen, hplen, -⟩ := h.operands
  cases i with
  | nop => exact .next (h.complete .ok)
  | derive rev =>
    have hrk : deriveRoundKeys t.params.tables t.key rev = deriveRoundKeys s.params.tables s.key rev := by
      rw [hparams, hkey]
    rw [exec_derive, exec_derive]
    refine .next (State.SameView.complete ?_ .ok)
    exact ⟨{ h.status with }, { h.operands with }, { h.results with rk := hrk }⟩
  | xform =>
    have hblk : transformBlock t.params.tables t.blkIn t.rk = transformBlock s.params.tables s.blkIn s.rk := by
      rw [hparams, hblkIn, h.results.rk]
    rw [exec_xform, exec_xform]
    refine .next (State.SameView.complete ?_ .ok)
    exact ⟨{ h.status with }, { h.operands with }, { h.results with blkOut := hblk }⟩
  | ctsEnc =>
    simp only [exec, execCtsEnc, hparams, hkey, hiv, hlen, h.inputMessage_eq]
    split
    · exact .next (h.complete .lenRange)
    · cases inputMessage s s.len.toNat with
      | none => exact .fault .unwrittenInput
      | some msg => exact .next ((h.emit _ _ _).complete .ok)
  | ctsDec =>
    simp only [exec, execCtsDec, hparams, hkey, hiv, hlen, hplen, h.inputMessage_eq]
    split
    · exact .next (h.complete .lenRange)
    · split
      · exact .next (h.complete .decLength)
      · cases inputMessage s s.len.toNat with
        | none => exact .fault .unwrittenInput
        | some msg => exact .next ((h.emit _ _ _).complete .ok)

/-- The engine step decodes the same word, so it runs the same command. -/
theorem State.SameView.sameOutcome_engineStep {s t : State} (h : s.SameView t) : SameOutcome (engineStep s) (engineStep t) := by
  unfold engineStep
  rw [h.operands.cmd]
  cases decode s.cmd with
  | error e => exact .next (h.complete .illegalCmd)
  | ok i => exact h.sameOutcome_exec i

/-! ### Reads (R77, R78) -/

/-- A read changes no register, no buffer byte and no bit of STATUS (R78). -/
theorem hostAccess_read_sameView {a : HostAction} {s t : State} (ha : a.isRead = true) (h : hostAccess a s = .next t) :
    s.SameView t := by
  rcases hostAccess_next h with ⟨_, _, rfl, -⟩ | ⟨_, _, rfl, -⟩ | ⟨_, _, rfl, -⟩ | ⟨-, v, k, rfl⟩
  · cases ha
  · cases ha
  · cases ha
  · exact s.sameView_bus (some v) (s.draws + k)

/-- Whether a read answers a next state is a matter of the registers and the buffers it is made on. -/
theorem hostAccess_read_of_sameView {a : HostAction} {s s' t : State} (ha : a.isRead = true) (h : hostAccess a s = .next t)
    (hv : s.SameView s') : ∃ u, hostAccess a s' = .next u := by
  cases a with
  | regRead n =>
    simp only [hostAccess, regRead]
    split <;> exact ⟨_, rfl⟩
  | regWrite n v => cases ha
  | inWrite i b => cases ha
  | inRead i =>
    simp only [hostAccess, inRead, hv.operands.params, hv.operands.inRead] at h ⊢
    split
    next hlt =>
      cases hbyte : s.inBuf.read i with
      | some b => exact ⟨_, rfl⟩
      | none => simp [hlt, hbyte] at h
    next => exact ⟨_, rfl⟩
  | outRead i =>
    simp only [hostAccess, outRead, hv.operands.params, hv.status.busy, hv.results.outRead] at h ⊢
    split
    next hlt =>
      split
      next => exact ⟨_, rfl⟩
      next hidle =>
        cases hbyte : s.outBuf.read i with
        | some b => exact ⟨_, rfl⟩
        | none => simp [hlt, hidle, hbyte] at h
    next => exact ⟨_, rfl⟩

/-- Settles O17: the read leaves a state with the same view, and the engine step depends on no more than that. -/
theorem readsDoNotDisturbTheCommand : Obligations.ReadsDoNotDisturbTheCommand := by
  intro a s u _ ha hread
  have hout := (hostAccess_read_sameView ha hread).sameOutcome_engineStep
  constructor
  · intro t ht
    obtain ⟨v, hstep, hv⟩ := (ht ▸ hout).of_next
    exact ⟨v, hstep, hv.status, hv.operands, hv.results⟩
  · intro f hf
    exact (hf ▸ hout).of_fault

/-! ### Register writes (R78, R79, R81) -/

/-- A register write while BUSY = 0 (R302, R303). -/
theorem hostAccess_regWrite_idle {s : State} (n : BitVec 8) (v : Block) (hb : s.busy = false) :
    hostAccess (.regWrite n v) s = .next (writeReg { s with reply := none } v (regOf n)) := by
  simp [hostAccess, regWrite, hb]

/-- The reserved numbers (R55), checked number by number. -/
theorem regOf_reserved : ∀ n : BitVec 8, (0x09 ≤ n.toNat ∧ n.toNat ≤ 0x0F) ∨ 0x20 ≤ n.toNat → regOf n = .reserved := by
  decide +kernel

/-- A write to a register other than CMD, made again on the state it left, leaves it as it is (R78). -/
theorem writeReg_again (s : State) (v : Block) {r : Reg} (h : r ≠ .cmd) :
    writeReg { writeReg { s with reply := none } v r with reply := none } v r = writeReg { s with reply := none } v r := by
  cases r with
  | cmd => exact absurd rfl h
  | rk i => simp [writeReg]
  | _ => rfl

/-- Settles O53: the ignored numbers name registers that `writeReg` leaves alone, and a reserved register reads 0. -/
theorem readOnlyAndReservedWritesIgnored : Obligations.ReadOnlyAndReservedWritesIgnored := by
  intro s n v
  constructor
  · rintro hb (rfl | rfl | rfl) <;> exact hostAccess_regWrite_idle _ v hb
  · intro hn
    have hreg : regOf n = .reserved := regOf_reserved n hn
    constructor
    · intro hb
      rw [hostAccess_regWrite_idle n v hb, hreg]
      rfl
    · simp [hostAccess, regRead, hreg, Reg.isResult, readReg, State.respond]

/-! ### Idempotence (R78) -/

/-- A byte written again is the byte written. -/
@[simp] theorem Memory.write_write_same (m : Memory) (a : Nat) (b : Byte) : (m.write a b).write a b = m.write a b := by
  induction m with
  | nil => simp [Memory.write]
  | cons c m ih =>
    obtain ⟨k, v⟩ := c
    rcases Nat.lt_trichotomy a k with h | h | h
    · simp [Memory.write, h]
    · simp [Memory.write, h]
    · simp [Memory.write, ih, show ¬ a < k by omega, show a ≠ k by omega]

/-- A write other than to CMD leaves STATUS and CMD alone, and made again leaves the state it is made on (R78). -/
theorem hostAccess_write_again {a : HostAction} {s t : State} (ha : a.isRead = false)
    (hcmd : ∀ v, a ≠ .regWrite 0x00#8 v) (h : hostAccess a s = .next t) :
    StatusKept s t ∧ t.cmd = s.cmd ∧ hostAccess a t = .next t := by
  rcases hostAccess_next h with ⟨n, v, rfl, hb, rfl⟩ | ⟨i, b, rfl, hb, hlt, rfl⟩ | ⟨i, b, rfl, hb, hle, rfl⟩ | ⟨hr, -⟩
  · have hne : regOf n ≠ .cmd := fun hr => hcmd v (by rw [eq_regNum_of_regOf hr nofun]; rfl)
    have hkept := writeReg_statusKept { s with reply := none } v hne
    refine ⟨{ hkept with }, by simp [hne], ?_⟩
    rw [hostAccess_regWrite_idle n v (hkept.busy.trans hb), writeReg_again s v hne]
  · exact ⟨⟨rfl, rfl, rfl⟩, rfl, by simp [hostAccess, inWrite, hb, hlt]⟩
  · exact ⟨⟨rfl, rfl, rfl⟩, rfl, by simp [hostAccess, inWrite, hb, Nat.not_lt.mpr hle]⟩
  · exact nomatch ha.symm.trans hr

/-- Settles O59: a read made again answers a next state with the same view, and a write other than to CMD the state it is
made on. -/
theorem onlyCmdWriteHasSideEffect : Obligations.OnlyCmdWriteHasSideEffect := by
  intro a s t h
  cases ha : a.isRead with
  | true =>
    have hv := hostAccess_read_sameView ha h
    obtain ⟨u, hu⟩ := hostAccess_read_of_sameView ha h hv
    have hv' := hostAccess_read_sameView ha hu
    exact ⟨fun _ => ⟨hv.status, hv.operands, hv.results⟩,
      fun _ => ⟨hv.status, hv.operands.cmd, u, hu, hv'.status, hv'.operands, hv'.results⟩⟩
  | false =>
    refine ⟨nofun, fun hcmd => ?_⟩
    obtain ⟨hstatus, hword, hagain⟩ := hostAccess_write_again ha hcmd h
    have hv := State.SameView.refl t
    exact ⟨hstatus, hword, t, hagain, hv.status, hv.operands, hv.results⟩

end Sys2Proof.Machine
end

section
/-! Proofs of the statements of 30_encoding.md: decoding inverts encoding (R101, R103 to R105), the six legal words (R104), and
the three kinds of illegal words with their completion (R106). The decoder is read off two equations: a word is its four
fields side by side, and OP and REV alone select the command once the reserved bits are 0. -/

namespace Sys2Proof

/-! ### The fields of a command word (R101) -/

/-- A word is its fields RSV_HI, REV, RSV_LO and OP side by side. -/
theorem fields_append_eq (w : Word) : cwRsvHi w ++ BitVec.ofBool (cwRev w) ++ cwRsvLo w ++ cwOp w = w := by
  have hrev : BitVec.ofBool (cwRev w) = w.extractLsb' 8 1 := by
    ext i hi
    obtain rfl : i = 0 := by omega
    simp [cwRev]
  rw [hrev, cwRsvHi, cwRsvLo, cwOp, BitVec.extractLsb'_append_extractLsb'_eq_extractLsb' (by rfl),
    BitVec.extractLsb'_append_extractLsb'_eq_extractLsb' (by rfl),
    BitVec.extractLsb'_append_extractLsb'_eq_extractLsb' (by rfl)]
  exact BitVec.extractLsb'_eq_self

/-- A word with every reserved bit 0 is the command word of its OP and REV. -/
theorem cw_cwOp_cwRev {w : Word} (hhi : cwRsvHi w = 0) (hlo : cwRsvLo w = 0) : cw (cwOp w) (cwRev w) = w := by
  have hw := fields_append_eq w
  rwa [hhi, hlo] at hw

/-! ### The decoder (R103, R105) -/

/-- OP and REV select a command only where its encoding has them. -/
theorem encode_of_decodeOp {op : Nat} {rev : Bool} {i : Instr} (h : decodeOp op rev = .ok i) :
    encode i = cw (BitVec.ofNat 4 op) rev := by
  unfold decodeOp at h
  split at h <;> cases h <;> rfl

/-- OP and REV select no command where OP is reserved, or REV is set for another command than DERIVE (R106). -/
theorem decodeOp_error_iff {op : Nat} {rev : Bool} :
    (∃ e, decodeOp op rev = .error e) ↔ 5 ≤ op ∨ (rev = true ∧ op ≠ 1) := by
  match op, rev with
  | 0, r | 1, r | 2, r | 3, r | 4, r => cases r <;> simp [decodeOp]
  | n + 5, r => simp [decodeOp]

/-- Every way for a word to decode: a reserved bit set, or what OP and REV select. -/
theorem decode_cases (w : Word) :
    ((cwRsvHi w ≠ 0 ∨ cwRsvLo w ≠ 0) ∧ decode w = .error .reservedBits) ∨
    (cwRsvHi w = 0 ∧ cwRsvLo w = 0 ∧ decode w = decodeOp (cwOp w).toNat (cwRev w)) := by
  by_cases h : cwRsvHi w ≠ 0 ∨ cwRsvLo w ≠ 0
  · exact .inl ⟨h, by simp only [decode, h, if_true]⟩
  · obtain ⟨hhi, hlo⟩ : cwRsvHi w = 0 ∧ cwRsvLo w = 0 := by simpa using h
    exact .inr ⟨hhi, hlo, by simp [decode, hhi, hlo]⟩

/-- Decoding an encoded command gives it back. -/
@[simp] theorem decode_encode (i : Instr) : decode (encode i) = .ok i := by
  cases i with
  | derive rev => cases rev <;> rfl
  | _ => rfl

/-- A word that decodes to a command is its encoding. -/
theorem encode_of_decode {w : Word} {i : Instr} (h : decode w = .ok i) : encode i = w := by
  rcases decode_cases w with ⟨-, hd⟩ | ⟨hhi, hlo, hd⟩ <;> rw [hd] at h
  · cases h
  · calc encode i
        _ = cw (BitVec.ofNat 4 (cwOp w).toNat) (cwRev w) := encode_of_decodeOp h
        _ = cw (cwOp w) (cwRev w) := by rw [BitVec.ofNat_toNat, BitVec.setWidth_eq]
        _ = w := cw_cwOp_cwRev hhi hlo

/-- Settles O1: a decoded word is the command word of its OP and REV, and so is the encoding of what they select. -/
theorem decodeInvertsEncode : Obligations.DecodeInvertsEncode :=
  fun _ i => ⟨encode_of_decode, fun h => h ▸ decode_encode i⟩

/-! ### The legal words (R104) -/

/-- A word decodes to a command exactly where it is the word of that command. -/
theorem decode_eq_ok_iff {w c : Word} {i : Instr} (hi : encode i = c) : decode w = .ok i ↔ w = c := by
  rw [decodeInvertsEncode w i, hi, eq_comm]

/-- An illegal word is one that is no command's encoding. -/
theorem decode_error_iff_forall_ne (w : Word) : (∃ e, decode w = .error e) ↔ ∀ i, w ≠ encode i := by
  constructor
  · rintro ⟨e, he⟩ i rfl
    exact nomatch he.symm.trans (decode_encode i)
  · intro hne
    cases hd : decode w with
    | error e => exact ⟨e, rfl⟩
    | ok i => exact absurd (encode_of_decode hd).symm (hne i)

/-- Settles O2: the six words are the encodings of the commands, DERIVE with REV at either value. -/
theorem legalWordsAreExactlySix : Obligations.LegalWordsAreExactlySix := by
  intro w
  refine ⟨decode_eq_ok_iff rfl, decode_eq_ok_iff rfl, decode_eq_ok_iff rfl, decode_eq_ok_iff rfl, decode_eq_ok_iff rfl,
    decode_eq_ok_iff rfl, (decode_error_iff_forall_ne w).trans ⟨fun hne => ?_, ?_⟩⟩
  · exact ⟨hne .nop, hne (.derive false), hne (.derive true), hne .xform, hne .ctsEnc, hne .ctsDec⟩
  · rintro ⟨hnop, hderive, hderiveRev, hxform, hctsEnc, hctsDec⟩ i
    cases i with
    | nop => exact hnop
    | derive rev =>
      cases rev with
      | false => exact hderive
      | true => exact hderiveRev
    | xform => exact hxform
    | ctsEnc => exact hctsEnc
    | ctsDec => exact hctsDec

/-- Settles O3, word by word. -/
theorem wordsFromTheTableDecode : Obligations.WordsFromTheTableDecode := ⟨rfl, rfl, rfl, rfl, rfl, rfl⟩

/-! ### The illegal words (R106) -/

/-- The three kinds of illegal words, by the fields. -/
theorem decode_error_iff_fields (w : Word) :
    (∃ e, decode w = .error e) ↔
      5 ≤ (cwOp w).toNat ∨ cwRsvHi w ≠ 0 ∨ cwRsvLo w ≠ 0 ∨ (cwRev w = true ∧ cwOp w ≠ 1#4) := by
  rcases decode_cases w with ⟨hrsv, hd⟩ | ⟨hhi, hlo, hd⟩
  · exact ⟨fun _ => .inr (hrsv.elim .inl fun hlo => .inr (.inl hlo)), fun _ => ⟨_, hd⟩⟩
  · have hop : (cwOp w).toNat ≠ 1 ↔ cwOp w ≠ 1#4 := (BitVec.toNat_inj (y := 1#4)).not
    rw [hd, decodeOp_error_iff, hop]
    simp [hhi, hlo]

end Sys2Proof

namespace Sys2Proof.Machine

/-- A completion without a result writes STATUS alone (60_exceptions.md R348). -/
theorem State.onlyStatusWritten_complete (s : State) (code : ErrCode) :
    OnlyStatusWritten s (s.complete code) code.bits :=
  ⟨⟨rfl, rfl, rfl⟩, ⟨rfl, rfl, rfl, rfl, rfl, rfl, rfl, fun _ => rfl⟩, ⟨rfl, rfl, rfl, fun _ => rfl⟩, ⟨rfl, rfl, rfl⟩⟩

/-- The engine step on an illegal word is the completion with ILLEGAL_CMD (60_exceptions.md R342). -/
theorem engineStep_of_decode_error {s : State} (h : ∃ e, decode s.cmd = .error e) :
    engineStep s = .next (s.complete .illegalCmd) := by
  rcases engineStep_cases s with ⟨-, hstep⟩ | ⟨i, hok, -⟩
  · exact hstep
  · obtain ⟨e, he⟩ := h
    exact nomatch he.symm.trans hok

/-- Settles O4: the kinds by the fields of the latched word, and the completion with ILLEGAL_CMD, which writes STATUS alone. -/
theorem illegalWordsCompleteWithError : Obligations.IllegalWordsCompleteWithError := fun s =>
  ⟨decode_error_iff_fields s.cmd,
    fun h => ⟨_, engineStep_of_decode_error h, s.onlyStatusWritten_complete .illegalCmd⟩⟩

end Sys2Proof.Machine
end

section
/-! Proofs of the statements of 40_tables.md: FP inverts IP and IP inverts FP, for every table set that meets R158. Permuting
by a table and then by one that inverts it gives the input back; the check of R158 gives one direction of the inversion, and
that IP names no position twice gives the other. -/

namespace Sys2Proof.Machine

/-- Permuting by v and then by u gives the input back where v sends every position that u names back to its own place. -/
theorem permute_permute_of_inverts {n m : Nat} {u : Vector Nat n} {v : Vector Nat m}
    (hu : ∀ j (_ : j < n), 1 ≤ u[j] ∧ u[j] ≤ m)
    (hinv : ∀ j (_ : j < n), v[u[j] - 1]'(by have := hu j ‹_›; omega) = j + 1) (x : BitVec n) :
    permute u (permute v x) = x := by
  refine BitVec.eq_of_getMsbD_eq fun j hj => ?_
  have hlt : u[j] - 1 < m := by have := hu j hj; omega
  calc (permute u (permute v x)).getMsbD j
      _ = (permute v x).getMsbD (u[j] - 1) := permute_getMsbD u _ j hj
      _ = x.getMsbD (v[u[j] - 1] - 1) := permute_getMsbD v x _ hlt
      _ = x.getMsbD j := by rw [hinv j hj, Nat.add_sub_cancel]

/-- R143, the other way: `Entries.inverse` says IP[FP[j]] = j; as IP names no position twice, FP[IP[j]] = j too. -/
theorem Entries.fp_ip {t : Tables} (h : Entries t) (j : Nat) (hj : j < 64) :
    t.fp[t.ip[j] - 1]'(by have := h.ip j hj; omega) = j + 1 := by
  have hip := h.ip j hj
  have hlt : t.ip[j] - 1 < 64 := by omega
  have hfp := h.fp _ hlt
  have hsame : t.ip[t.fp[t.ip[j] - 1] - 1] = t.ip[j] := by rw [h.inverse _ hlt]; omega
  have hpos : t.fp[t.ip[j] - 1] - 1 = j := h.ipInj _ _ (by omega) hj hsame
  omega

/-- Settles O24: each unit permutes by a table that inverts the other's. -/
theorem finalPermutationInvertsInitial : Obligations.FinalPermutationInvertsInitial := by
  intro t hwf x
  have h := entries_of_wf hwf
  exact ⟨permute_permute_of_inverts h.fp h.inverse x, permute_permute_of_inverts h.ip h.fp_ip x⟩

end Sys2Proof.Machine
end

section
/-! Proofs of the statements of 41_cipher_engine.md: the S-box array (R187, R188), the key schedule (R190 to R194), the
rounds (R196 to R200), the corner cases of R202 and R203, and the commands DERIVE and XFORM with R204. The schedule folds over
the rotation amounts and the rounds over the round keys, so the halves of step i are what the fold leaves after the first i
entries. The corner cases hold of every table set that meets R158, but for the parity bits, which the default PC1 drops. -/

namespace Sys2Proof.Machine

/-! ### S-box array (R187, R188) -/

/-- The row of an S-box input as a number (R187), checked input by input. -/
theorem sboxRow_toNat : ∀ u : BitVec 6, (sboxRow u).toNat = 2 * (u.getLsbD 5).toNat + (u.getLsbD 0).toNat := by decide

/-- The column of an S-box input as a number (R187), checked input by input. -/
theorem sboxCol_toNat : ∀ u : BitVec 6, (sboxCol u).toNat =
    8 * (u.getLsbD 4).toNat + 4 * (u.getLsbD 3).toNat + 2 * (u.getLsbD 2).toNat + (u.getLsbD 1).toNat := by decide

/-- A lane gives the entry it looks up unreduced: the entries of a good table set are below 16 (R158). -/
theorem sbox_toNat {t : Tables} (h : Entries t) (k : Fin 8) (u : BitVec 6) :
    (sbox t k u).toNat =
      (t.sboxes[k].toList.getD (sboxRow u).toNat (Vector.replicate 16 0)).toList.getD (sboxCol u).toNat 0 := by
  have hrow : (sboxRow u).toNat < 4 := (sboxRow u).isLt
  have hcol : (sboxCol u).toNat < 16 := (sboxCol u).isLt
  have hentry : t.sboxes[k.val][(sboxRow u).toNat][(sboxCol u).toNat] < 16 := h.sbox k.val k.isLt _ hrow _ hcol
  simp [sbox, List.getD_eq_getElem?_getD, hrow, hcol, Nat.mod_eq_of_lt hentry]

/-- R188: lane k of the array, counted from the most significant, is the S-box lane k of the six bits it reads. -/
theorem subst_lane (t : Tables) (x : RoundKey) (k : Fin 8) :
    (subst t x).extractLsb' (28 - 4 * k.val) 4 = sbox t k (x.extractLsb' (42 - 6 * k.val) 6) := by
  unfold subst
  match k with
  | 0 =>
    repeat rw [BitVec.extractLsb'_append_eq_of_le (by decide)]
    exact BitVec.extractLsb'_eq_self
  | 1 | 2 | 3 | 4 | 5 | 6 | 7 =>
    repeat rw [BitVec.extractLsb'_append_eq_of_le (by decide)]
    exact BitVec.extractLsb'_append_eq_right

/-- Settles O25: the lanes by row and column, their places in the array, and the rules' examples evaluated. -/
theorem sboxLaneLooksUpRowAndColumn : Obligations.SboxLaneLooksUpRowAndColumn :=
  ⟨fun t hwf k u => by rw [← sboxRow_toNat, ← sboxCol_toNat]; exact sbox_toNat (entries_of_wf hwf) k u,
    subst_lane, by decide +kernel, by decide +kernel, by decide +kernel, by decide +kernel⟩

/-! ### Rotation of the key halves (R16, R186) -/

/-- R16: the two summands do not overlap, so the sum does not wrap. -/
theorem rotl28_toNat (x : KeyHalf) {r : Nat} (hr : r = 1 ∨ r = 2) :
    (rotl28 x r).toNat = x.toNat * 2 ^ r % 2 ^ 28 + x.toNat / 2 ^ (28 - r) := by
  have hx := x.isLt
  rcases hr with rfl | rfl <;>
    · simp only [rotl28, BitVec.toNat_add, BitVec.toNat_shiftLeft, BitVec.toNat_ushiftRight, Nat.shiftLeft_eq,
        Nat.shiftRight_eq_div_pow]
      omega

/-- The key half after the first i rotations (R191). -/
def keyHalfAt (rs : List Nat) (x : KeyHalf) (i : Nat) : KeyHalf := (rs.take i).foldl rotl28 x

theorem keyHalfAt_succ {rs : List Nat} (x : KeyHalf) {i : Nat} (h : i < rs.length) :
    keyHalfAt rs x (i + 1) = rotl28 (keyHalfAt rs x i) rs[i] := by
  rw [keyHalfAt, List.take_succ_eq_append_getElem h, List.foldl_append, List.foldl_cons, List.foldl_nil, keyHalfAt]

/-! ### Key schedule (R190 to R194) -/

/-- R192: step i gives PC2 of the halves after i + 1 rotations. -/
theorem keySteps_getElem (t : Tables) {rs : List Nat} (c d : KeyHalf) {i : Nat} (h : i < (keySteps t rs c d).length) :
    (keySteps t rs c d)[i] = pc2 t (keyHalfAt rs c (i + 1) ++ keyHalfAt rs d (i + 1)) := by
  induction rs generalizing c d i with
  | nil => exact absurd h (Nat.not_lt_zero i)
  | cons r rs ih =>
    cases i with
    | zero => rfl
    | succ i => exact ih _ _ _

theorem deriveRoundKeys_getElem (t : Tables) (k : Block) (reversed : Bool) (i : Nat) (h : i < 16) :
    (deriveRoundKeys t k reversed)[i] = (scheduleList t k reversed)[i]'(by rw [scheduleList_length]; exact h) := rfl

/-- Settles O26: the halves are those after the first i rotations; the rules' examples are evaluated. -/
theorem roundKeysRotateCumulatively : Obligations.RoundKeysRotateCumulatively := by
  refine ⟨fun x _ hr => rotl28_toNat x hr, by decide, by decide, fun t key => ?_, by decide +kernel, by decide, by decide,
    by decide +kernel, by decide +kernel, by decide +kernel⟩
  refine ⟨keyHalfAt t.shifts.toList (hi28 (pc1 t key)), keyHalfAt t.shifts.toList (lo28 (pc1 t key)),
    hi28_append_lo28 _, fun i => ?_⟩
  have hi : i.val < t.shifts.toList.length := by simp
  exact ⟨keyHalfAt_succ _ hi, keyHalfAt_succ _ hi, keySteps_getElem t _ _ (by simp [keySteps_length])⟩

/-- Settles O27: the reversed schedule is made by list reversal. -/
theorem reversedScheduleIsTheReversal : Obligations.ReversedScheduleIsTheReversal := by
  intro t key j
  simp [deriveRoundKeys_getElem, scheduleList, List.getElem_reverse]

/-! ### Rounds (R195 to R199) -/

/-- The halves after the first i rounds (R196). -/
def halvesAt (t : Tables) (ks : List RoundKey) (lr : Half × Half) (i : Nat) : Half × Half := rounds t (ks.take i) lr

theorem halvesAt_succ (t : Tables) {ks : List RoundKey} (lr : Half × Half) {i : Nat} (h : i < ks.length) :
    halvesAt t ks lr (i + 1) = round t (halvesAt t ks lr i) ks[i] := by
  rw [halvesAt, List.take_succ_eq_append_getElem h, rounds_append, rounds_cons, rounds_nil, halvesAt]

theorem halvesAt_length (t : Tables) (ks : List RoundKey) (lr : Half × Half) :
    halvesAt t ks lr ks.length = rounds t ks lr := by rw [halvesAt, List.take_length]

/-- R198: the transform, by the halves after the sixteenth round. -/
theorem transformBlock_eq (t : Tables) (b : Block) (ks : Vector RoundKey 16) :
    transformBlock t b ks = finish t (halvesAt t ks.toList (hi32 (ip t b), lo32 (ip t b)) 16) := by
  have h16 := halvesAt_length t ks.toList (hi32 (ip t b), lo32 (ip t b))
  rw [Vector.length_toList] at h16
  rw [h16, transformBlock]

/-- Settles O28: the halves are those after the first i rounds; the rules' examples are evaluated. -/
theorem transformIsSixteenFeistelRounds : Obligations.TransformIsSixteenFeistelRounds := by
  refine ⟨fun t b ks => ?_, fun _ _ _ => rfl, by decide +kernel, by decide +kernel, by decide +kernel,
    fun _ _ _ => ⟨rfl, rfl⟩, by decide +kernel⟩
  refine ⟨fun i => (halvesAt t ks.toList (hi32 (ip t b), lo32 (ip t b)) i).1,
    fun i => (halvesAt t ks.toList (hi32 (ip t b), lo32 (ip t b)) i).2,
    hi32_append_lo32 _, fun i => ?_, transformBlock_eq t b ks⟩
  have hround := halvesAt_succ t (ks := ks.toList) (hi32 (ip t b), lo32 (ip t b)) (i := i.val) (by simp)
  exact ⟨congrArg Prod.fst hround, congrArg Prod.snd hround⟩

/-! ### Encryption and decryption invert each other (R200) -/

/-- The rounds of the reversed schedule, between two swaps of the halves, undo those of the schedule. -/
theorem rounds_reverse_swap (t : Tables) (ks : List RoundKey) (lr : Half × Half) :
    rounds t ks.reverse (rounds t ks lr).swap = lr.swap := by
  induction ks generalizing lr with
  | nil => rfl
  | cons k ks ih =>
    have hundo : round t (round t lr k).swap k = lr.swap := by simpa using congrArg Prod.swap (round_swap t k lr)
    rw [List.reverse_cons, rounds_append, rounds_cons t k ks, ih, rounds_cons, rounds_nil, hundo]

/-- IP undoes FP (R158), so the halves that enter a second transform are those the first one left, swapped (R197). -/
theorem ip_finish {t : Tables} (hwf : t.wf = true) (lr : Half × Half) :
    (hi32 (ip t (finish t lr)), lo32 (ip t (finish t lr))) = lr.swap := by
  rw [finish, (finalPermutationInvertsInitial t hwf _).2, hi32_append, lo32_append]
  rfl

/-- The transform under a schedule read backwards undoes the transform, where FP and IP invert each other (R158). -/
theorem transformBlock_transformBlock {t : Tables} (hwf : t.wf = true) {ks js : Vector RoundKey 16}
    (h : js.toList = ks.toList.reverse) (b : Block) : transformBlock t (transformBlock t b ks) js = b := by
  calc transformBlock t (transformBlock t b ks) js
      _ = finish t (rounds t ks.toList.reverse (rounds t ks.toList (hi32 (ip t b), lo32 (ip t b))).swap) := by
        simp only [transformBlock, ip_finish hwf, h]
      _ = fp t (hi32 (ip t b) ++ lo32 (ip t b)) := by rw [rounds_reverse_swap]; rfl
      _ = b := by rw [hi32_append_lo32, (finalPermutationInvertsInitial t hwf b).1]

/-- Settles O29: each direction's schedule is the other's read backwards. -/
theorem engineInvolution : Obligations.EngineInvolution := by
  intro t hwf key b
  exact ⟨transformBlock_transformBlock hwf (by simp [scheduleList]) b,
    transformBlock_transformBlock hwf (by simp [scheduleList]) b⟩

/-! ### Parity bits (R146, R202 (a)) -/

/-- A permutation reads nothing outside a mask that covers the positions its table names. -/
theorem permute_and_mask {n m : Nat} {v : Vector Nat m} {mask : BitVec n}
    (h : ∀ j (_ : j < m), mask.getMsbD (v[j] - 1) = true) (x : BitVec n) : permute v (x &&& mask) = permute v x := by
  refine BitVec.eq_of_getMsbD_eq fun j hj => ?_
  rw [permute_getMsbD _ _ _ hj, permute_getMsbD _ _ _ hj, BitVec.getMsbD_and, h j hj, Bool.and_true]

/-- The default PC1 names no position of a low bit of a byte (R146). -/
theorem pc1_desTables_and_mask (k : Block) : pc1 desTables (k &&& 0xFEFEFEFEFEFEFEFE#64) = pc1 desTables k :=
  permute_and_mask (by decide +kernel) k

/-- The schedule depends on the key through PC1 alone (R190). -/
theorem deriveRoundKeys_congr {t : Tables} {k k' : Block} (h : pc1 t k = pc1 t k') (reversed : Bool) :
    deriveRoundKeys t k reversed = deriveRoundKeys t k' reversed := by
  simp only [deriveRoundKeys, scheduleList, forwardKeys, h]

/-- Settles O30: PC1 reads neither key's low bits. -/
theorem parityBitsDoNotMatter : Obligations.ParityBitsDoNotMatter := by
  intro key1 key2 rev h
  refine deriveRoundKeys_congr ?_ rev
  rw [← pc1_desTables_and_mask key1, h, pc1_desTables_and_mask]

/-! ### Weak keys (R202 (b)) -/

/-- A constant half is left alone by the rotations of a good table set (R158). -/
theorem rotl28_of_constant {x : KeyHalf} (hx : x = 0 ∨ x = 0xFFFFFFF#28) {r : Nat} (hr : r = 1 ∨ r = 2) :
    rotl28 x r = x := by
  rcases hx with rfl | rfl <;> rcases hr with rfl | rfl <;> decide

/-- Halves that no rotation changes give one round key throughout. -/
theorem keySteps_of_fixed (t : Tables) {rs : List Nat} {c d : KeyHalf} (hc : ∀ r ∈ rs, rotl28 c r = c)
    (hd : ∀ r ∈ rs, rotl28 d r = d) : keySteps t rs c d = List.replicate rs.length (pc2 t (c ++ d)) := by
  induction rs with
  | nil => rfl
  | cons r rs ih =>
    obtain ⟨hcr, hcs⟩ := List.forall_mem_cons.mp hc
    obtain ⟨hdr, hds⟩ := List.forall_mem_cons.mp hd
    rw [keySteps_cons, hcr, hdr, ih hcs hds, List.length_cons, List.replicate_succ]

/-- A key with constant halves derives sixteen equal round keys, in either order. -/
theorem deriveRoundKeys_of_constant {t : Tables} (hwf : t.wf = true) {k : Block}
    (hc : hi28 (pc1 t k) = 0 ∨ hi28 (pc1 t k) = 0xFFFFFFF#28) (hd : lo28 (pc1 t k) = 0 ∨ lo28 (pc1 t k) = 0xFFFFFFF#28)
    (reversed : Bool) : deriveRoundKeys t k reversed = Vector.replicate 16 (pc2 t (pc1 t k)) := by
  have hshifts := (entries_of_wf hwf).shifts
  have hkeys : forwardKeys t k = List.replicate 16 (pc2 t (pc1 t k)) := by
    rw [forwardKeys, keySteps_of_fixed t (fun r hr => rotl28_of_constant hc (hshifts r hr))
      (fun r hr => rotl28_of_constant hd (hshifts r hr)), hi28_append_lo28, Vector.length_toList]
  rw [← Vector.toList_inj, deriveRoundKeys_toList, Vector.toList_replicate]
  cases reversed <;> simp [scheduleList, hkeys]

/-- Settles O31: both schedules are one round key repeated, and Decrypt with it is Encrypt. -/
theorem weakKeysGiveEqualRoundKeys : Obligations.WeakKeysGiveEqualRoundKeys := by
  intro t key hwf hc hd
  have hkeys := deriveRoundKeys_of_constant hwf hc hd
  refine ⟨fun i j => by simp [hkeys], by rw [hkeys, hkeys], fun b => ?_⟩
  have hdec : encryptBlock t key (encryptBlock t key b) = decryptBlock t key (encryptBlock t key b) := by
    simp only [encryptBlock, decryptBlock, hkeys]
  rw [hdec, (engineInvolution t hwf key b).1]

/-! ### Complementation (R203 (d)) -/

/-- A field commutes with complement where it lies in the value: the upper half, which ends at its top, included. -/
theorem extractLsb'_not_of_add_le {n start len : Nat} (h : start + len ≤ n) (x : BitVec n) :
    (~~~x).extractLsb' start len = ~~~(x.extractLsb' start len) := by
  ext i hi
  have hin : start + i < n := by omega
  simp [hin]

/-- Rotation commutes with complement. -/
theorem rotl28_not (x : KeyHalf) {r : Nat} (hr : r = 1 ∨ r = 2) : rotl28 (~~~x) r = ~~~(rotl28 x r) := by
  have hx := x.isLt
  apply BitVec.eq_of_toNat_eq
  rw [rotl28_toNat _ hr, BitVec.toNat_not, BitVec.toNat_not, rotl28_toNat _ hr]
  rcases hr with rfl | rfl <;> omega

/-- Complemented halves give the complemented round keys. -/
theorem keySteps_not {t : Tables} (h : Entries t) {rs : List Nat} (hrs : ∀ r ∈ rs, r = 1 ∨ r = 2) (c d : KeyHalf) :
    keySteps t rs (~~~c) (~~~d) = (keySteps t rs c d).map (~~~·) := by
  induction rs generalizing c d with
  | nil => rfl
  | cons r rs ih =>
    obtain ⟨hr, hrs⟩ := List.forall_mem_cons.mp hrs
    have hpc2 (cd : BitVec 56) : pc2 t (~~~cd) = ~~~(pc2 t cd) := permute_not h.pc2 cd
    rw [keySteps_cons, keySteps_cons, rotl28_not c hr, rotl28_not d hr, ih hrs, ← BitVec.not_append, hpc2, List.map_cons]

/-- The complemented key derives the complemented schedule. -/
theorem forwardKeys_not {t : Tables} (h : Entries t) (k : Block) :
    forwardKeys t (~~~k) = (forwardKeys t k).map (~~~·) := by
  have hpc1 : pc1 t (~~~k) = ~~~(pc1 t k) := permute_not h.pc1 k
  have hhi : hi28 (~~~(pc1 t k)) = ~~~(hi28 (pc1 t k)) := extractLsb'_not_of_add_le (by decide) _
  have hlo : lo28 (~~~(pc1 t k)) = ~~~(lo28 (pc1 t k)) := extractLsb'_not_of_add_le (by decide) _
  rw [forwardKeys, hpc1, hhi, hlo, keySteps_not h h.shifts, forwardKeys]

/-- The round function does not see a complement of both its arguments: it xors them (R189). -/
theorem roundFn_not {t : Tables} (h : Entries t) (r : Half) (k : RoundKey) : roundFn t (~~~r) (~~~k) = roundFn t r k := by
  have hexpand : expand t (~~~r) = ~~~(expand t r) := permute_not h.e r
  have hxor : ~~~(expand t r) ^^^ ~~~k = expand t r ^^^ k := by
    rw [← BitVec.not_xor_left, ← BitVec.not_xor_right, BitVec.not_not]
  rw [roundFn, hexpand, hxor, roundFn]

/-- Complemented halves stay complemented over the rounds of the complemented schedule. -/
theorem rounds_not {t : Tables} (h : Entries t) (ks : List RoundKey) (l r : Half) :
    rounds t (ks.map (~~~·)) (~~~l, ~~~r) = (~~~(rounds t ks (l, r)).1, ~~~(rounds t ks (l, r)).2) := by
  induction ks generalizing l r with
  | nil => rfl
  | cons k ks ih =>
    have hround : round t (~~~l, ~~~r) (~~~k) = (~~~r, ~~~(l ^^^ roundFn t r k)) := by
      simp only [round, roundFn_not h, BitVec.not_xor_left]
    rw [List.map_cons, rounds_cons, hround, ih, rounds_cons, round]

/-- Complementing key and block complements the result, for every table set that meets R158. -/
theorem encryptBlock_not {t : Tables} (hwf : t.wf = true) (k b : Block) :
    encryptBlock t (~~~k) (~~~b) = ~~~(encryptBlock t k b) := by
  have h := entries_of_wf hwf
  have hip : ip t (~~~b) = ~~~(ip t b) := permute_not h.ip b
  have hfp (x : Block) : fp t (~~~x) = ~~~(fp t x) := permute_not h.fp x
  have hhi : hi32 (~~~(ip t b)) = ~~~(hi32 (ip t b)) := extractLsb'_not_of_add_le (by decide) _
  have hlo : lo32 (~~~(ip t b)) = ~~~(lo32 (ip t b)) := extractLsb'_not_of_add_le (by decide) _
  simp only [encryptBlock, transformBlock, deriveRoundKeys_toList, scheduleList, Bool.false_eq_true, if_false,
    forwardKeys_not h, hip, hhi, hlo, rounds_not h, finish, ← BitVec.not_append, hfp]

/-- Settles O32: the default tables meet R158. -/
theorem complementationProperty : Obligations.ComplementationProperty := encryptBlock_not desTables_wf

/-! ### The commands DERIVE and XFORM (R202 to R204) -/

/-- Settles O16, command by command: none reads a hidden register, and a completion puts free values there. -/
theorem commandsNeverReadHiddenState : Obligations.CommandsNeverReadHiddenState := by
  intro i s h
  cases i <;> rfl

/-- Settles O21: the schedule is put into RK, and the completion and its frame are those of every command. -/
theorem deriveWritesSchedule : Obligations.DeriveWritesSchedule := by
  intro rev s
  obtain ⟨-, -, hops, hrun, -⟩ := exec_next_frame (exec_derive rev s)
  exact ⟨_, exec_derive rev s, ⟨rfl, rfl, rfl⟩, rfl, hops, hrun, rfl, rfl, fun _ => rfl⟩

/-- Settles O22: the transformed block is put into BLK_OUT, and the completion and its frame are those of every command. -/
theorem xformWritesBlkOut : Obligations.XformWritesBlkOut := by
  intro s
  obtain ⟨-, -, hops, hrun, -⟩ := exec_next_frame (exec_xform s)
  exact ⟨_, exec_xform s, ⟨rfl, rfl, rfl⟩, rfl, hops, hrun, rfl, rfl, fun _ => rfl⟩

end Sys2Proof.Machine
end

section
/-! Proofs of the statements of 42_cbc_cts.md: the paths of CTS_ENC and CTS_DEC (R244 to R261), their completions (R251, R262),
RK never read (R266), the round trip (R263) and the short-input asymmetry (R264). Each path has one equation, in terms of the
CBC chain over the message's blocks. The general paths are CBC too: CTS_ENC's blocks C(1) to C(n-1) are the chain's, of which
it cuts the last, and CTS_DEC decrypts the chain it has completed. So the round trip is that of CBC (`chain_decStep_encStep`), with the
stolen bytes rebuilt (`pack8_rebuilt_eq`). -/

namespace Sys2Proof.Machine

/-! ### Parts of byte sequences (R14) -/

theorem slice_append_middle {a b : List Byte} (c : List Byte) {i n : Nat} (ha : a.length = i) (hb : b.length = n) :
    slice (a ++ b ++ c) i n = b := by
  rw [slice, List.append_assoc, List.drop_left' ha, List.take_left' hb]

theorem slice_append_right {a b : List Byte} {i n : Nat} (ha : a.length = i) (hb : b.length = n) :
    slice (a ++ b) i n = b := by
  simpa using slice_append_middle [] ha hb

theorem slice_to_end {s : List Byte} {i n : Nat} (h : s.length = i + n) : slice s i n = s.drop i :=
  List.take_of_length_le (by rw [List.length_drop]; omega)

theorem padded_length {s : List Byte} {d : Nat} (hs : s.length = d) (hd : d ≤ 8) : (s ++ zeros (8 - d)).length = 8 := by
  rw [List.length_append, zeros_length]
  omega

theorem unpack8_take_length (v : Block) {d : Nat} (hd : d ≤ 8) : ((unpack8 v).take d).length = d := by
  rw [List.length_take, unpack8_length]
  omega

theorem slice_bytesOf_append {bs : List Block} {b : Block} {j : Nat} (h : bs[j]? = some b) (s : List Byte) :
    slice (bytesOf bs ++ s) (8 * j) 8 = unpack8 b := by
  obtain ⟨hj, rfl⟩ := List.getElem?_eq_some_iff.mp h
  exact slice_bytesOf hj

theorem slice_bytesOf_eq {bs : List Block} {b : Block} {j : Nat} (h : bs[j]? = some b) :
    slice (bytesOf bs) (8 * j) 8 = unpack8 b := by
  simpa using slice_bytesOf_append h []

theorem blocksOf_getElem {m : Nat} {s : List Byte} {j : Nat} (h : j < (blocksOf m s).length) :
    (blocksOf m s)[j] = pack8 (slice s (8 * j) 8) := by
  rw [blocksOf_length] at h
  exact List.getElem_eq_iff _ |>.mpr (blocksOf_getElem? h)

theorem blocksOf_getD {m : Nat} {s : List Byte} {j : Nat} (h : j < m) :
    (blocksOf m s).getD j 0 = pack8 (slice s (8 * j) 8) := by
  rw [List.getD_eq_getElem?_getD, blocksOf_getElem? h, Option.getD_some]

/-- One block more, cut from the sequence after the others. -/
theorem blocksOf_succ (m : Nat) (s : List Byte) : blocksOf (m + 1) s = blocksOf m s ++ [pack8 (slice s (8 * m) 8)] := by
  refine List.ext_getElem? fun j => ?_
  rcases Nat.lt_trichotomy j m with h | rfl | h
  · rw [blocksOf_getElem? (by omega), List.getElem?_append_left (by rwa [blocksOf_length]), blocksOf_getElem? h]
  · rw [blocksOf_getElem? (by omega), List.getElem?_append_right (by rw [blocksOf_length]), blocksOf_length]
    simp
  · rw [List.getElem?_eq_none (by rw [blocksOf_length]; omega), List.getElem?_eq_none (by simp [blocksOf_length]; omega)]

/-! ### The CBC chain (R242, R243, R267) -/

/-- One block more goes through the step with PREV as the others left it. -/
theorem chain_append_singleton (f : Block → Block → Block × Block) (prev : Block) (bs : List Block) (b : Block) :
    chain f prev (bs ++ [b]) =
      ((chain f prev bs).1 ++ [(f (chain f prev bs).2 b).1], (f (chain f prev bs).2 b).2) := by
  induction bs generalizing prev with
  | nil => rfl
  | cons a bs ih => simp only [List.cons_append, chain, ih]

theorem bytesOf_chain_length (f : Block → Block → Block × Block) (prev : Block) (m : Nat) (s : List Byte) :
    (bytesOf (chain f prev (blocksOf m s)).1).length = 8 * m := by
  rw [bytesOf_length, chain_length, blocksOf_length]

/-- The encrypting chain ends with its last output block in PREV. -/
theorem chain_encStep_append_singleton (enc : Block → Block) (iv : Block) (bs : List Block) (b : Block) :
    (chain (encStep enc) iv (bs ++ [b])).1 =
      (chain (encStep enc) iv bs).1 ++ [(chain (encStep enc) iv (bs ++ [b])).2] := by
  rw [chain_append_singleton]
  rfl

/-- The decrypting chain undoes the encrypting one, where Decrypt undoes Encrypt. -/
theorem chain_decStep_encStep {enc dec : Block → Block} (h : ∀ b, dec (enc b) = b) (iv : Block) (bs : List Block) :
    (chain (decStep dec) iv (chain (encStep enc) iv bs).1).1 = bs := by
  induction bs generalizing iv with
  | nil => rfl
  | cons b bs ih => simp [chain, encStep, decStep, h, ih]

/-- The chain values of CTS_ENC on the first m blocks of a message: each output block is the next of them. -/
theorem chain_encStep_blocksOf (enc : Block → Block) (iv : Block) (msg : List Byte) (m : Nat) :
    ∃ c : Nat → Block, c 0 = iv ∧
      (∀ j, j < m → c (j + 1) = enc (pack8 (slice msg (8 * j) 8) ^^^ c j) ∧
        (chain (encStep enc) iv (blocksOf m msg)).1[j]? = some (c (j + 1))) ∧
      (chain (encStep enc) iv (blocksOf m msg)).2 = c m := by
  obtain ⟨c, h0, hstep, hlast⟩ := chain_encStep enc iv (blocksOf m msg)
  refine ⟨c, h0, fun j hj => ?_, by rw [hlast, blocksOf_length]⟩
  have hlt : j < (blocksOf m msg).length := by rwa [blocksOf_length]
  simpa only [blocksOf_getElem] using hstep j hlt

/-- The chain value before block j of a ciphertext: the block before it, the IV for the first (R243, R267). -/
def chainBefore (iv : Block) (msg : List Byte) (j : Nat) : Block :=
  if j = 0 then iv else pack8 (slice msg (8 * (j - 1)) 8)

/-- The blocks that CTS_DEC's chain gives on the first m blocks of a ciphertext, and what it leaves in PREV. -/
theorem chain_decStep_blocksOf (dec : Block → Block) (iv : Block) (msg : List Byte) (m : Nat) :
    (∀ j, j < m → (chain (decStep dec) iv (blocksOf m msg)).1[j]? =
      some (dec (pack8 (slice msg (8 * j) 8)) ^^^ chainBefore iv msg j)) ∧
    (chain (decStep dec) iv (blocksOf m msg)).2 = chainBefore iv msg m := by
  have hprev (j : Nat) (hj : j ≤ m) :
      (if j = 0 then iv else (blocksOf m msg).getD (j - 1) 0) = chainBefore iv msg j := by
    unfold chainBefore
    split
    · rfl
    · exact blocksOf_getD (by omega)
  obtain ⟨hstep, hlast⟩ := chain_decStep dec iv (blocksOf m msg)
  rw [blocksOf_length] at hlast
  refine ⟨fun j hj => ?_, hlast.trans (hprev m (Nat.le_refl m))⟩
  have hlt : j < (blocksOf m msg).length := by rwa [blocksOf_length]
  rw [hstep j hlt, blocksOf_getElem, hprev j (Nat.le_of_lt hj)]

/-! ### The paths of CTS_ENC (R245 to R250) -/

/-- R245, R246: the empty message is zero whole blocks. -/
theorem encBytes_full (enc : Block → Block) (iv : Block) {msg : List Byte} {m : Nat} (h : msg.length = 8 * m) :
    encBytes enc iv msg = bytesOf (chain (encStep enc) iv (blocksOf m msg)).1 := by
  have hdiv : msg.length / 8 = m := by omega
  by_cases h0 : msg.length = 0
  · obtain rfl : m = 0 := by omega
    rw [encBytes, h0]
    rfl
  · rw [encBytes, encCase_full h0 (by omega), encFull, hdiv]

/-- R247: a short message is one whole block once it is padded. -/
theorem encBytes_short (enc : Block → Block) (iv : Block) {msg : List Byte} (h1 : 1 ≤ msg.length) (h7 : msg.length ≤ 7) :
    encBytes enc iv msg = unpack8 (enc (pack8 (msg ++ zeros (8 - msg.length)) ^^^ iv)) := by
  rw [encBytes, encCase_short h1 h7, encShort]

/-- R248 to R250, with C(n-1) as the last of k + 1 chained blocks. -/
theorem encBytes_general (enc : Block → Block) (iv : Block) {msg : List Byte} {k d : Nat}
    (h : msg.length = 8 * (k + 1) + d) (h1 : 1 ≤ d) (h7 : d ≤ 7) {cn1 : Block}
    (hcn1 : (chain (encStep enc) iv (blocksOf (k + 1) msg)).2 = cn1) :
    encBytes enc iv msg = bytesOf (chain (encStep enc) iv (blocksOf k msg)).1 ++ (unpack8 cn1).take d ++
      unpack8 (enc (pack8 (slice msg (8 * (k + 1)) d ++ zeros (8 - d)) ^^^ cn1)) := by
  have hcase : encCase msg.length = .general := h ▸ encCase_general (by omega) h1 h7
  have hlead : 8 * (k + 1) / 8 - 1 = k := by omega
  have hlast : 8 * (k + 1) - 8 = 8 * k := by omega
  rw [blocksOf_succ, chain_append_singleton] at hcn1
  rw [encBytes, hcase]
  simp only [encGeneral, h, fullLen_eq (k + 1) h7, tailLen_eq (k + 1) h7, hlead, hlast]
  rw [← hcn1]
  rfl

/-! ### The paths of CTS_DEC (R256 to R261) -/

theorem decBytes_full (dec : Block → Block) (iv : Block) {msg : List Byte} {m : Nat} (h : msg.length = 8 * m) :
    decBytes dec iv msg (8 * m) = bytesOf (chain (decStep dec) iv (blocksOf m msg)).1 := by
  have hdiv : msg.length / 8 = m := by omega
  rw [decBytes, decCase_full _ (by omega), decFull, hdiv]

theorem decBytes_short (dec : Block → Block) (iv : Block) {msg : List Byte} {p : Nat} (h : msg.length = 8) (h1 : 1 ≤ p)
    (h7 : p ≤ 7) : decBytes dec iv msg p = (unpack8 (dec (pack8 msg) ^^^ iv)).take p := by
  have hall : slice msg 0 8 = msg := slice_append_right (a := []) rfl h
  rw [decBytes, decCase_short (by omega) (by omega), decShort, hall]

/-- R258 to R261: the chain runs over the leading blocks and the completed C(n-1); the tail is cut from Z xor C(n-1). -/
theorem decBytes_general (dec : Block → Block) (iv : Block) {msg : List Byte} {k d : Nat}
    (h : msg.length = 8 * k + (8 + d)) (h1 : 1 ≤ d) (h7 : d ≤ 7) {z cn1 : Block}
    (hz : z = dec (pack8 (slice msg (8 * k + d) 8))) (hcn1 : cn1 = pack8 (slice msg (8 * k) d ++ (unpack8 z).drop d)) :
    decBytes dec iv msg msg.length =
      bytesOf (chain (decStep dec) iv (blocksOf k msg)).1 ++
        unpack8 (dec cn1 ^^^ (chain (decStep dec) iv (blocksOf k msg)).2) ++ (unpack8 (z ^^^ cn1)).take d := by
  have htail : msg.length % 8 = d := by omega
  have hpre : msg.length - (8 + d) = 8 * k := by omega
  have hlead : 8 * k / 8 = k := by omega
  rw [decBytes, decCase_general (by omega) (by omega)]
  simp only [decGeneral, htail, hpre, hlead, pack8_unpack8, ← hz, ← hcn1]

/-! ### What the mode commands compute (R246 to R261) -/

/-- Settles O41: the chain values of the m blocks, the empty message included. -/
theorem encryptWholeBlocksIsCbc : Obligations.EncryptWholeBlocksIsCbc := by
  intro t key iv msg m hlen
  obtain ⟨c, h0, hstep, -⟩ := chain_encStep_blocksOf (encryptBlock t key) iv msg m
  rw [cbcCtsEncrypt, encBytes_full _ _ hlen]
  refine ⟨c, h0, bytesOf_chain_length _ _ _ _, fun j hj => ?_⟩
  obtain ⟨hval, hout⟩ := hstep j hj
  exact ⟨hval, slice_bytesOf_eq hout⟩

/-- Settles O42: the short path. -/
theorem encryptShortInputPadsWithZeros : Obligations.EncryptShortInputPadsWithZeros :=
  fun t key iv _ h1 h7 => encBytes_short (encryptBlock t key) iv h1 h7

/-- Settles O43: with the chain values of all m blocks, of which the output keeps C(n-1) cut to d bytes. -/
theorem encryptGeneralCaseStealsCiphertext : Obligations.EncryptGeneralCaseStealsCiphertext := by
  intro t key iv msg m d hlen hm h1 h7
  obtain ⟨k, rfl⟩ : ∃ k, m = k + 1 := ⟨m - 1, by omega⟩
  obtain ⟨c, h0, hstep, hlast⟩ := chain_encStep_blocksOf (encryptBlock t key) iv msg (k + 1)
  have hlead : (bytesOf (chain (encStep (encryptBlock t key)) iv (blocksOf k msg)).1).length = 8 * (k + 1) - 8 :=
    bytesOf_chain_length _ _ _ _
  have hcut : ((unpack8 (c (k + 1))).take d).length = d := unpack8_take_length _ (by omega)
  rw [cbcCtsEncrypt, encBytes_general _ _ hlen h1 h7 hlast]
  refine ⟨c, _, h0, ?_, fun j hj => (hstep j hj).1, rfl, fun j hj => ?_, slice_append_middle _ hlead hcut,
    slice_append_right (by rw [List.length_append, hlead, hcut]) (unpack8_length _)⟩
  · rw [List.length_append, List.length_append, hlead, hcut, unpack8_length]
    omega
  · have hout := (hstep j (by omega)).2
    rw [blocksOf_succ, chain_encStep_append_singleton, List.getElem?_append_left (by rw [chain_length, blocksOf_length]; omega)]
      at hout
    rw [List.append_assoc, slice_bytesOf_append hout]

/-- Settles O44: the chain over the m blocks, each xored with the one before it. -/
theorem decryptWholeBlocksIsCbc : Obligations.DecryptWholeBlocksIsCbc := by
  intro t key iv msg m hlen
  rw [cbcCtsDecrypt, decBytes_full _ _ hlen]
  exact ⟨bytesOf_chain_length _ _ _ _, fun j hj => slice_bytesOf_eq ((chain_decStep_blocksOf _ _ _ _).1 j hj)⟩

/-- Settles O45: the short path. -/
theorem decryptShortCaseTruncates : Obligations.DecryptShortCaseTruncates :=
  fun t key iv _ _ h h1 h7 => decBytes_short (decryptBlock t key) iv h h1 h7

/-- Settles O46: the chain over the k leading blocks, then the two last segments by their places in the output. -/
theorem decryptGeneralCaseRebuildsStolenBytes : Obligations.DecryptGeneralCaseRebuildsStolenBytes := by
  intro t key iv msg k d hlen h1 h7
  refine ⟨_, _, rfl, rfl, decBytes_length _ _ _ _ (.inr (.inr (by omega))), ?_⟩
  obtain ⟨hstep, hlast⟩ := chain_decStep_blocksOf (decryptBlock t key) iv msg k
  have hlead : (bytesOf (chain (decStep (decryptBlock t key)) iv (blocksOf k msg)).1).length = 8 * k :=
    bytesOf_chain_length _ _ _ _
  rw [cbcCtsDecrypt, decBytes_general _ _ hlen h1 h7 rfl rfl, hlast]
  refine ⟨fun j hj => ?_, slice_append_middle _ hlead (unpack8_length _),
    slice_append_right (by rw [List.length_append, hlead, unpack8_length]) (unpack8_take_length _ (by omega))⟩
  rw [List.append_assoc, slice_bytesOf_append (hstep j hj)]
  rfl

/-! ### Decryption undoes encryption (R263, R264) -/

/-- The whole-block path undoes itself. -/
theorem decBytes_encBytes_full {enc dec : Block → Block} (h : ∀ b, dec (enc b) = b) (iv : Block) {msg : List Byte} {m : Nat}
    (hlen : msg.length = 8 * m) : decBytes dec iv (encBytes enc iv msg) (8 * m) = msg := by
  have hcs : (chain (encStep enc) iv (blocksOf m msg)).1.length = m := by rw [chain_length, blocksOf_length]
  have hblocks := blocksOf_bytesOf (chain (encStep enc) iv (blocksOf m msg)).1 []
  rw [List.append_nil, hcs] at hblocks
  rw [encBytes_full enc iv hlen, decBytes_full dec iv (by rw [bytesOf_length, hcs]), hblocks, chain_decStep_encStep h,
    bytesOf_blocksOf (by omega), List.take_of_length_le (by omega)]

/-- R264: as whole blocks, the ciphertext of a short message is that of the padded one. -/
theorem encBytes_pad (enc : Block → Block) (iv : Block) {msg : List Byte} (h1 : 1 ≤ msg.length) (h7 : msg.length ≤ 7) :
    encBytes enc iv msg = encBytes enc iv (msg ++ zeros (8 - msg.length)) := by
  have h8 : (msg ++ zeros (8 - msg.length)).length = 8 := padded_length rfl (by omega)
  have hall : (msg ++ zeros (8 - msg.length)).take 8 = msg ++ zeros (8 - msg.length) :=
    List.take_of_length_le (by omega)
  rw [encBytes_short enc iv h1 h7, encBytes_full enc iv (m := 1) h8]
  simp [blocksOf, chain, encStep, hall]

/-- R257: the short path is the whole-block path on one block, cut to p bytes. -/
theorem decBytes_short_eq_take (dec : Block → Block) (iv : Block) {msg : List Byte} {p : Nat} (h : msg.length = 8)
    (h1 : 1 ≤ p) (h7 : p ≤ 7) : decBytes dec iv msg p = (decBytes dec iv msg 8).take p := by
  have hall : msg.take 8 = msg := List.take_of_length_le (by omega)
  rw [decBytes_short dec iv h h1 h7, decBytes_full dec iv (m := 1) h]
  simp [blocksOf, chain, decStep, hall]

/-- R259: under the zero padding, the tail of Z = P(n) xor C(n-1) is that of C(n-1): so it completes the d bytes emitted. -/
theorem pack8_rebuilt_eq {tail : List Byte} {d : Nat} (htail : tail.length = d) (h7 : d ≤ 7) (cn1 : Block) :
    pack8 ((unpack8 cn1).take d ++ (unpack8 (pack8 (tail ++ zeros (8 - d)) ^^^ cn1)).drop d) = cn1 := by
  have hdrop : (unpack8 (pack8 (tail ++ zeros (8 - d)) ^^^ cn1)).drop d = (unpack8 cn1).drop d := by
    rw [unpack8_xor, unpack8_pack8 (padded_length htail (by omega)), List.drop_zipWith, List.drop_left' htail,
      zipWith_xor_zeros _ _ (by rw [List.length_drop, unpack8_length])]
  rw [hdrop, List.take_append_drop, pack8_unpack8]

/-- R258 to R261: where Z is the zero-padded tail xor C(n-1), the general path decrypts the chain up to the whole C(n-1), of
which d bytes were emitted, and gives the tail. -/
theorem decBytes_stolen (dec : Block → Block) (iv : Block) (cs : List Block) {cn1 cn : Block} {tail ct : List Byte} {d : Nat}
    (htail : tail.length = d) (h1 : 1 ≤ d) (h7 : d ≤ 7) (hz : dec cn = pack8 (tail ++ zeros (8 - d)) ^^^ cn1)
    (hct : ct = bytesOf cs ++ (unpack8 cn1).take d ++ unpack8 cn) :
    decBytes dec iv ct ct.length = bytesOf (chain (decStep dec) iv (cs ++ [cn1])).1 ++ tail := by
  have hcut : ((unpack8 cn1).take d).length = d := unpack8_take_length cn1 (by omega)
  have hlen : ct.length = 8 * cs.length + (8 + d) := by
    rw [hct, List.length_append, List.length_append, bytesOf_length, hcut, unpack8_length]
    omega
  have hblocks : blocksOf cs.length ct = cs := by rw [hct, List.append_assoc, blocksOf_bytesOf]
  have hstolen : slice ct (8 * cs.length) d = (unpack8 cn1).take d := by
    rw [hct, slice_append_middle _ (bytesOf_length cs) hcut]
  have hlast : slice ct (8 * cs.length + d) 8 = unpack8 cn := by
    rw [hct, slice_append_right (by rw [List.length_append, bytesOf_length, hcut]) (unpack8_length cn)]
  have hcn1 : cn1 = pack8 (slice ct (8 * cs.length) d ++ (unpack8 (dec cn)).drop d) := by
    rw [hstolen, hz, pack8_rebuilt_eq htail h7]
  have htailOut : (unpack8 (dec cn ^^^ cn1)).take d = tail := by
    rw [hz, BitVec.xor_assoc, BitVec.xor_self, BitVec.xor_zero, unpack8_pack8 (padded_length htail (by omega)),
      List.take_left' htail]
  rw [decBytes_general dec iv hlen h1 h7 (by rw [hlast, pack8_unpack8]) hcn1, hblocks, htailOut, chain_append_singleton]
  simp [bytesOf, decStep]

/-- The general path undoes itself: CTS_DEC completes the chain that CTS_ENC cut. -/
theorem decBytes_encBytes_general {enc dec : Block → Block} (h : ∀ b, dec (enc b) = b) (iv : Block) {msg : List Byte}
    {k d : Nat} (hlen : msg.length = 8 * (k + 1) + d) (h1 : 1 ≤ d) (h7 : d ≤ 7) :
    decBytes dec iv (encBytes enc iv msg) msg.length = msg := by
  have hctLen : (encBytes enc iv msg).length = msg.length := by
    rw [encBytes_length, encOutLen_eq, if_neg (by omega), if_neg (by omega)]
  have htail : slice msg (8 * (k + 1)) d = msg.drop (8 * (k + 1)) := slice_to_end hlen
  have hchain := chain_encStep_append_singleton enc iv (blocksOf k msg) (pack8 (slice msg (8 * k) 8))
  rw [← blocksOf_succ] at hchain
  rw [← hctLen, encBytes_general enc iv hlen h1 h7 rfl,
    decBytes_stolen dec iv _ (by rw [htail, List.length_drop]; omega) h1 h7 (h _) rfl, ← hchain, chain_decStep_encStep h,
    bytesOf_blocksOf (by omega), htail, List.take_append_drop]

/-- R264 of the byte sequences: the short ciphertext, taken as a whole block, gives the padded message. -/
theorem decBytes_encBytes_pad {enc dec : Block → Block} (h : ∀ b, dec (enc b) = b) (iv : Block) {msg : List Byte}
    (h1 : 1 ≤ msg.length) (h7 : msg.length ≤ 7) :
    decBytes dec iv (encBytes enc iv msg) 8 = msg ++ zeros (8 - msg.length) := by
  rw [encBytes_pad enc iv h1 h7]
  exact decBytes_encBytes_full h iv (m := 1) (padded_length rfl (by omega))

/-- R263 of the byte sequences: a message of any length is whole blocks, short, or general. -/
theorem decBytes_encBytes {enc dec : Block → Block} (h : ∀ b, dec (enc b) = b) (iv : Block) (msg : List Byte) :
    decBytes dec iv (encBytes enc iv msg) msg.length = msg := by
  have hlen : msg.length = 8 * (msg.length / 8) + msg.length % 8 := by omega
  by_cases hfull : msg.length % 8 = 0
  · have hwhole : msg.length = 8 * (msg.length / 8) := by omega
    rw [hwhole]
    exact decBytes_encBytes_full h iv hwhole
  · cases hm : msg.length / 8 with
    | zero =>
      have h1 : 1 ≤ msg.length := by omega
      have h7 : msg.length ≤ 7 := by omega
      have hct : (encBytes enc iv msg).length = 8 := by
        rw [encBytes_length, encOutLen_eq, if_neg (by omega), if_pos h7]
      rw [decBytes_short_eq_take dec iv hct h1 h7, decBytes_encBytes_pad h iv h1 h7, List.take_left]
    | succ k => exact decBytes_encBytes_general h iv (hm ▸ hlen) (by omega) (by omega)

/-- Settles O48: Decrypt undoes Encrypt for a table set that meets R158. -/
theorem shortInputAsymmetry : Obligations.ShortInputAsymmetry :=
  fun t key iv _ hwf h1 h7 => decBytes_encBytes_pad (fun b => (engineInvolution t hwf key b).1) iv h1 h7

/-! ### Completions (R251, R262) -/

/-- CTS_ENC past its check, on a message (R251). -/
theorem exec_ctsEnc_of_message {s : State} {msg : List Byte} (hlen : s.len.toNat ≤ s.params.maxLen.val)
    (hmsg : inputMessage s s.len.toNat = some msg) :
    exec .ctsEnc s = .next ((s.emit (cbcCtsEncrypt s.params.tables s.key s.iv msg) (encOutLen s.len.toNat)
      (deriveRoundKeys s.params.tables s.key false)).complete .ok) := by
  simp only [exec, execCtsEnc, Nat.not_lt.mpr hlen, if_false, hmsg]

/-- CTS_DEC past its checks, on a message (R262). -/
theorem exec_ctsDec_of_message {s : State} {msg : List Byte} (hlen : s.len.toNat ≤ s.params.maxLen.val)
    (hplen : s.plen.toNat ≤ s.params.maxLen.val) (hpair : AcceptedPair s.len.toNat s.plen.toNat)
    (hmsg : inputMessage s s.len.toNat = some msg) :
    exec .ctsDec s = .next ((s.emit (cbcCtsDecrypt s.params.tables s.key s.iv msg s.plen.toNat) s.plen.toNat
      (deriveRoundKeys s.params.tables s.key true)).complete .ok) := by
  simp [exec, execCtsDec, Nat.not_lt.mpr hlen, Nat.not_lt.mpr hplen, (decAccepts_iff _ _).mpr hpair, hmsg]

/-- The bytes written from index 0 on stand there. -/
theorem Memory.read_writeBytes_zero_of_lt (m : Memory) {bs : List Byte} {a : Nat} (h : a < bs.length) :
    (m.writeBytes 0 bs).read a = bs[a]? := by
  simp [Memory.read_writeBytes, h]

/-- The bytes after those written stay. -/
theorem Memory.read_writeBytes_zero_of_le (m : Memory) {bs : List Byte} {a : Nat} (h : bs.length ≤ a) :
    (m.writeBytes 0 bs).read a = m.read a := by
  simp [Memory.read_writeBytes, Nat.not_lt.mpr h]

/-- A length within a capacity fits in a length register (R11). -/
theorem toNat_ofNat_of_le_capacity {cap : Capacity} {n : Nat} (h : n ≤ cap.val) : (BitVec.ofNat 32 n).toNat = n := by
  have hcap := cap.property.2
  rw [BitVec.toNat_ofNat, Nat.mod_eq_of_lt (by omega)]

/-- Settles O33: the check passes, and what is emitted has the length that OUT_LEN says. -/
theorem ctsEncWritesCiphertext : Obligations.CtsEncWritesCiphertext := by
  intro s hlen hin
  obtain ⟨msg, hmsg⟩ := inputMessage_of_written hin
  obtain ⟨hmsgLen, hread⟩ := inputMessage_eq_some.mp hmsg
  have hexec := exec_ctsEnc_of_message hlen hmsg
  obtain ⟨-, -, hops, hrun, -⟩ := exec_next_frame hexec
  have hout : (BitVec.ofNat 32 (encOutLen s.len.toNat)).toNat = encOutLen s.len.toNat :=
    toNat_ofNat_of_le_capacity (encOutLen_le hlen)
  have hbytes : (cbcCtsEncrypt s.params.tables s.key s.iv msg).length =
      (BitVec.ofNat 32 (encOutLen s.len.toNat)).toNat := by
    rw [hout, cbcCtsEncrypt, encBytes_length, hmsgLen]
  exact ⟨_, msg, hexec, ⟨rfl, rfl, rfl⟩, hmsgLen, hread, hout.trans (encOutLen_eq _), hbytes,
    fun _ ha => Memory.read_writeBytes_zero_of_lt _ (ha.trans_eq hbytes.symm),
    fun _ ha => Memory.read_writeBytes_zero_of_le _ (hbytes.trans_le ha), rfl, hops, hrun, rfl⟩

/-- Settles O34: the checks pass, and what is emitted has PLEN bytes. -/
theorem ctsDecWritesPlaintext : Obligations.CtsDecWritesPlaintext := by
  intro s hlen hplen hpair hin
  obtain ⟨msg, hmsg⟩ := inputMessage_of_written hin
  obtain ⟨hmsgLen, hread⟩ := inputMessage_eq_some.mp hmsg
  have hexec := exec_ctsDec_of_message hlen hplen hpair hmsg
  obtain ⟨-, -, hops, hrun, -⟩ := exec_next_frame hexec
  have hbytes : (cbcCtsDecrypt s.params.tables s.key s.iv msg s.plen.toNat).length = s.plen.toNat :=
    decBytes_length _ _ _ _ (hmsgLen ▸ hpair)
  exact ⟨_, msg, hexec, ⟨rfl, rfl, rfl⟩, hmsgLen, hread, BitVec.ofNat_toNat _ _ |>.trans (BitVec.setWidth_eq _), hbytes,
    fun _ ha => Memory.read_writeBytes_zero_of_lt _ (ha.trans_eq hbytes.symm),
    fun _ ha => Memory.read_writeBytes_zero_of_le _ (hbytes.trans_le ha), rfl, hops, hrun, rfl⟩

/-! ### RK is never read (R266) -/

/-- The outcome with another RK where an error leaves the RK found. -/
def withRkOnError (r : Vector RoundKey 16) : Result → Result
  | .next t => .next { t with rk := if t.err = 0#4 then t.rk else r }
  | .fault f => .fault f
  | .refused x => .refused x

theorem exec_ctsEnc_rk (s : State) (r : Vector RoundKey 16) :
    exec .ctsEnc { s with rk := r } = withRkOnError r (exec .ctsEnc s) := by
  have hmsg (n : Nat) : inputMessage { s with rk := r } n = inputMessage s n := rfl
  simp only [exec, execCtsEnc, hmsg]
  split
  · rfl
  · cases inputMessage s s.len.toNat <;> rfl

theorem exec_ctsDec_rk (s : State) (r : Vector RoundKey 16) :
    exec .ctsDec { s with rk := r } = withRkOnError r (exec .ctsDec s) := by
  have hmsg (n : Nat) : inputMessage { s with rk := r } n = inputMessage s n := rfl
  simp only [exec, execCtsDec, hmsg]
  split
  · rfl
  · split
    · rfl
    · cases inputMessage s s.len.toNat <;> rfl

/-- Settles O40: both commands have the same outcome on the other RK, but for the RK that an error leaves. -/
theorem modeCommandsNeverReadRk : Obligations.ModeCommandsNeverReadRk := by
  intro i s r hi
  have hrk : exec i { s with rk := r } = withRkOnError r (exec i s) := by
    rcases hi with rfl | rfl
    · exact exec_ctsEnc_rk s r
    · exact exec_ctsDec_rk s r
  exact ⟨fun t ht => by rw [hrk, ht]; rfl, fun f hf => by rw [hrk, hf]; rfl⟩

/-! ### The round trip (R263) -/

/-- What CTS_ENC puts out is accepted by CTS_DEC with PLEN the message's length (R252, R254). -/
theorem acceptedPair_encOutLen (n : Nat) : AcceptedPair (encOutLen n) n := by
  rw [encOutLen_eq]
  unfold AcceptedPair
  split
  · omega
  · split <;> omega

/-- Settles O47: CTS_ENC completes on the message, and CTS_DEC on its output, which the bytes copied make the message of u. -/
theorem modeRoundTrip : Obligations.ModeRoundTrip := by
  intro s p hwf hmax hlen hin
  have hfit : s.len.toNat ≤ s.params.maxLen.val := hlen ▸ hmax
  have hmsg : inputMessage s s.len.toNat = some p := inputMessage_eq_some.mpr ⟨hlen.symm, hlen ▸ hin⟩
  refine ⟨_, exec_ctsEnc_of_message hfit hmsg, ⟨rfl, rfl, rfl⟩, fun u hparams hkey hiv hulen huplen hcopy => ?_⟩
  have hulenNat : u.len.toNat = encOutLen s.len.toNat := by
    rw [hulen]
    exact toNat_ofNat_of_le_capacity (encOutLen_le hfit)
  have hct : (cbcCtsEncrypt s.params.tables s.key s.iv p).length = u.len.toNat := by
    rw [cbcCtsEncrypt, encBytes_length, hulenNat, hlen]
  have humsg : inputMessage u u.len.toNat = some (cbcCtsEncrypt s.params.tables s.key s.iv p) :=
    inputMessage_eq_some.mpr ⟨hct, fun a ha =>
      (hcopy a (hulen ▸ ha)).trans (Memory.read_writeBytes_zero_of_lt _ (ha.trans_eq hct.symm))⟩
  have hback : cbcCtsDecrypt u.params.tables u.key u.iv (cbcCtsEncrypt s.params.tables s.key s.iv p) u.plen.toNat = p := by
    rw [hparams, hkey, hiv, huplen]
    exact decBytes_encBytes (fun b => (engineInvolution _ hwf s.key b).1) s.iv p
  have hexec := exec_ctsDec_of_message (by rw [hulenNat, hparams]; exact encOutLen_le hfit)
    (by rw [huplen, hparams]; exact hmax) (by rw [hulenNat, huplen, hlen]; exact acceptedPair_encOutLen _) humsg
  rw [hback, huplen] at hexec
  exact ⟨_, hexec, ⟨rfl, rfl, rfl⟩, toNat_ofNat_of_le_capacity hmax, fun _ ha => Memory.read_writeBytes_zero_of_lt _ ha⟩

end Sys2Proof.Machine
end

section
/-! Proofs of the statements of 43_host_interface.md: the host's accesses (R301 to R309), what a step does with the next entry
of the agenda (R300, R304, R314), NOP (R310), and the end of every run (R311, R312). -/

namespace Sys2Proof.Machine

/-! ### Register reads (R301, R309) -/

theorem hostAccess_regRead_stored {s : State} {n : BitVec 8} (h : s.busy = false ∨ (regOf n).isResult = false) :
    hostAccess (.regRead n) s = .next { s with reply := some (readReg s (regOf n)) } := by
  rcases h with h | h <;> simp [hostAccess, regRead, h, State.respond]

theorem hostAccess_regRead_free {s : State} {n : BitVec 8} (hb : s.busy = true) (hr : (regOf n).isResult = true) :
    hostAccess (.regRead n) s = .next { s with reply := some (Config.freeValue s.draws), draws := s.draws + 1 } := by
  simp [hostAccess, regRead, hb, hr, State.respondFree]

/-- The numbers of RK (R55). -/
theorem regOf_rk : ∀ i : Fin 16, regOf (BitVec.ofNat 8 (0x10 + i.val)) = .rk i := by decide

theorem regOf_eq_rk {n : BitVec 8} {i : Fin 16} (h : n.toNat = 0x10 + i.val) : regOf n = .rk i := by
  rw [← regOf_rk i, ← h, BitVec.ofNat_toNat, BitVec.setWidth_eq]

/-- The numbers of the result registers (R55, R309), checked number by number. -/
theorem regOf_isResult_iff : ∀ n : BitVec 8,
    (regOf n).isResult = true ↔ n = 0x05#8 ∨ n = 0x08#8 ∨ (0x10 ≤ n.toNat ∧ n.toNat ≤ 0x1F) := by
  decide +kernel

theorem readReg_reserved (s : State) {n : BitVec 8} (h : (0x09 ≤ n.toNat ∧ n.toNat ≤ 0x0F) ∨ 0x20 ≤ n.toNat) :
    readReg s (regOf n) = 0 := by
  rw [regOf_reserved n h]
  rfl

theorem readReg_rk (s : State) {n : BitVec 8} {i : Fin 16} (h : n.toNat = 0x10 + i.val) :
    readReg s (regOf n) = (s.rk[i]).setWidth 64 := by
  rw [regOf_eq_rk h]
  rfl

/-- STATUS as a number (R32 to R35), checked value by value of its three fields. -/
theorem statusWord_toNat (s : State) : (statusWord s).toNat = s.busy.toNat + 2 * s.done.toNat + 16 * s.err.toNat := by
  have hfields : ∀ (err : BitVec 4) (done busy : Bool),
      (0#24 ++ err ++ 0#2 ++ BitVec.ofBool done ++ BitVec.ofBool busy).toNat =
        busy.toNat + 2 * done.toNat + 16 * err.toNat := by decide +kernel
  exact hfields s.err s.done s.busy

theorem readReg_status_toNat (s : State) :
    (readReg s (regOf 0x01#8)).toNat = s.busy.toNat + 2 * s.done.toNat + 16 * s.err.toNat := by
  rw [← statusWord_toNat]
  exact BitVec.toNat_setWidth_of_le (by decide)

/-- Settles O50: at BUSY = 0 the read returns the stored value, which is read off the register map. -/
theorem regReadValues : Obligations.RegReadValues := by
  intro s n hb
  refine ⟨readReg s (regOf n), hostAccess_regRead_stored (.inl hb), ?_, ?_, ?_, ?_, ?_, ?_, ?_, ?_, ?_,
    fun i hi => readReg_rk s hi, readReg_reserved s⟩
  case refine_2 =>
    rintro rfl
    rw [readReg_status_toNat, hb]
    simp
  all_goals (rintro rfl; rfl)

/-- Settles O51: a result register reads a free value, whatever the results hold; every other register the stored one. -/
theorem regReadWhileBusy : Obligations.RegReadWhileBusy := by
  intro s n hb
  cases hr : (regOf n).isResult with
  | true =>
    have hother {m : BitVec 8} {p : Prop} (hm : (regOf m).isResult = false) (h : n = m) : p :=
      nomatch (h ▸ hr).symm.trans hm
    exact ⟨Config.freeValue s.draws, 1, hostAccess_regRead_free hb hr, hother rfl, hother rfl, hother rfl, hother rfl,
      hother rfl, hother rfl, hother rfl, fun h => (nomatch (regOf_reserved n h ▸ hr)),
      fun b l r _ => hostAccess_regRead_free hb hr⟩
  | false =>
    refine ⟨readReg s (regOf n), 0, hostAccess_regRead_stored (.inr hr), ?_, ?_, ?_, ?_, ?_, ?_, ?_, readReg_reserved s,
      fun b l r hn => nomatch hr.symm.trans ((regOf_isResult_iff n).mpr hn)⟩
    case refine_2 =>
      rintro rfl
      rw [readReg_status_toNat, hb]
      rfl
    all_goals (rintro rfl; rfl)

/-! ### Register writes (R302, R303, R305) -/

/-- Settles O52: the write by the register its number names; the low bits that fit are those `writeReg` keeps. -/
theorem regWriteStoresLowBits : Obligations.RegWriteStoresLowBits := by
  intro s v hb
  rw [← BitVec.setWidth_eq_extractLsb' (show 32 ≤ 64 by decide),
    ← BitVec.setWidth_eq_extractLsb' (show 48 ≤ 64 by decide)]
  have hwrite (n : BitVec 8) := hostAccess_regWrite_idle n v hb
  have hignored := readOnlyAndReservedWritesIgnored s
  refine ⟨hwrite _, hwrite _, hwrite _, hwrite _, hwrite _, fun i => ?_, ?_⟩
  · refine ⟨s.rk.set i (v.setWidth 48), by rw [hwrite, regOf_rk]; rfl, by simp, fun j hj => ?_⟩
    exact writeReg_rk_of_ne s v (r := .rk i) fun h => hj (Reg.rk.inj h).symm
  · rintro n (h | h | h | h)
    · exact (hignored n v).1 hb (.inl h)
    · exact (hignored n v).1 hb (.inr (.inl h))
    · exact (hignored n v).1 hb (.inr (.inr h))
    · exact ((hignored n v).2 h).1 hb

/-- Settles O54: the write of register 0 is the issue, and the engine step on an illegal word is the completion with
ILLEGAL_CMD. -/
theorem cmdWriteIssuesCommand : Obligations.CmdWriteIssuesCommand := by
  intro s v hb
  rw [← BitVec.setWidth_eq_extractLsb' (show 32 ≤ 64 by decide)]
  exact ⟨_, rfl, hostAccess_regWrite_idle 0x00#8 v hb,
    fun h => ⟨_, engineStep_of_decode_error h, (State.onlyStatusWritten_complete _ .illegalCmd).completed⟩⟩

/-- Settles O55: both writes check BUSY before anything else. -/
theorem writeWhileBusyFaults : Obligations.WriteWhileBusyFaults := by
  intro s hb
  constructor
  · intro n v
    simp [hostAccess, regWrite, hb]
  · intro a b
    simp [hostAccess, inWrite, hb]

/-! ### Buffer accesses (R306 to R309) -/

theorem zext64_byte (b : Byte) : zext64 b = 0#56 ++ b := BitVec.setWidth_eq_append (by decide)

/-- Settles O56: below MAX_LEN the buffer is written at that index, and above it the access is ignored. -/
theorem inWriteWritesOneByte : Obligations.InWriteWritesOneByte := by
  intro s a b hb
  constructor
  · intro hlt
    exact ⟨s.inBuf.write a b, by simp [hostAccess, inWrite, hb, hlt], Memory.read_write_same _ a b,
      fun x hx => Memory.read_write_other _ b hx⟩
  · intro hle
    simp [hostAccess, inWrite, hb, Nat.not_lt.mpr hle]

/-- Settles O57: by the index, and below MAX_LEN by whether the byte is written. -/
theorem inReadReturnsByte : Obligations.InReadReturnsByte := by
  intro s a
  refine ⟨fun hlt b hread => ?_, fun hlt hread => ?_, fun hle => ?_⟩
  · simp [hostAccess, inRead, hlt, hread, State.respond, zext64_byte]
  · simp [hostAccess, inRead, hlt, hread]
  · simp [hostAccess, inRead, Nat.not_lt.mpr hle, State.respond]

/-- Settles O58: by the index, then by BUSY, where the byte is a free value, and last by whether the byte is written. -/
theorem outReadReturnsByte : Obligations.OutReadReturnsByte := by
  intro s a
  refine ⟨fun hle => ?_, fun hlt hb => ⟨(Config.freeValue s.draws).setWidth 8, fun m => ?_⟩, fun hlt hb b hread => ?_,
    fun hlt hb hread => ?_⟩
  · simp [hostAccess, outRead, Nat.not_lt.mpr hle, State.respond]
  · simp only [hostAccess, outRead, hlt, hb, if_true, State.respondFreeByte, zext64_byte]
  · simp [hostAccess, outRead, hlt, hb, hread, State.respond, zext64_byte]
  · simp [hostAccess, outRead, hlt, hb, hread]

/-! ### NOP (R310) -/

/-- Settles O20: NOP is the bare completion, which writes STATUS alone. -/
theorem nopWritesOnlyStatus : Obligations.NopWritesOnlyStatus := fun s =>
  ⟨_, exec_nop s, s.onlyStatusWritten_complete .ok⟩

/-! ### The next move (R300, R304, R314) -/

/-- A next state passes through; a fault is recorded in the state the action was made on. -/
theorem recordFault_outcome (s : State) (o : Result) :
    (∀ t, o = .next t → recordFault s o = .next t) ∧
    (∀ f, o = .fault f → recordFault s o = .next { s with faulted := some f }) :=
  ⟨fun _ h => by rw [h]; rfl, fun _ h => by rw [h]; rfl⟩

theorem engineTurn_of_decode {s : State} {i : Instr} (hb : s.busy = true) (hd : decode s.cmd = .ok i) :
    engineTurn s = exec i s := by
  rw [engineTurn_busy hb, engineStep, hd]

/-- Settles O5: the engine's turn at BUSY = 1 is the decoded command, with its fault recorded. -/
theorem stepRunsDecodedCommand : Obligations.StepRunsDecodedCommand := by
  intro s i hf hwf hb hd
  rw [step_of_good hf hwf]
  constructor
  · intro rest ha
    rw [advance_engine ha, engineTurn_of_decode (s := s.withAgenda rest) hb hd]
    exact recordFault_outcome _ _
  · intro ha
    rw [advance_nil ha, engineTurn_of_decode hb hd]
    exact recordFault_outcome _ _

/-- Settles O6: the step of a host access, with its fault recorded. -/
theorem stepPerformsHostAccess : Obligations.StepPerformsHostAccess := by
  intro s a rest hf hwf ha
  rw [step_of_good hf hwf, advance_host ha]
  exact recordFault_outcome _ _

/-- Settles O7: at BUSY = 0 the engine's turn passes. -/
theorem engineIdleWhileNotBusy : Obligations.EngineIdleWhileNotBusy := by
  intro s hf hwf hb
  rw [step_of_good hf hwf]
  constructor
  · intro rest ha
    rw [advance_engine ha, engineTurn_idle (s := s.withAgenda rest) hb]
    rfl
  · intro ha
    rw [advance_nil ha, engineTurn_idle hb]
    rfl

/-! ### Every run ends (R311, R312) -/

/-- An engine step to a next state ends the command, and keeps the recorded fault and the agenda. -/
theorem engineStep_next_frame {s t : State} (h : engineStep s = .next t) : t.busy = false ∧ RunKept s t := by
  rcases engineStep_cases s with ⟨-, he⟩ | ⟨i, -, he⟩ <;> rw [he] at h
  · cases h
    exact ⟨rfl, (s.onlyStatusWritten_complete .illegalCmd).run⟩
  · obtain ⟨hbusy, -, -, hrun, -⟩ := exec_next_frame h
    exact ⟨hbusy, hrun⟩

theorem engineStep_not_refused (s : State) (r : Refusal) : engineStep s ≠ .refused r := by
  rcases engineStep_cases s with ⟨-, he⟩ | ⟨i, -, he⟩ <;> rw [he]
  · nofun
  · exact exec_not_refused i s r

@[simp] theorem writeReg_agenda (s : State) (v : Block) (r : Reg) : (writeReg s v r).agenda = s.agenda := by cases r <;> rfl

/-- A move takes no entry off the agenda itself: `advance` has done so. -/
theorem takeTurn_next_agenda {e : Event} {s t : State} (h : takeTurn e s = .next t) : t.agenda = s.agenda := by
  cases e with
  | host a =>
    rcases hostAccess_next h with ⟨n, v, -, -, rfl⟩ | ⟨_, _, -, -, -, rfl⟩ | ⟨_, _, -, -, -, rfl⟩ | ⟨-, _, _, rfl⟩
    · exact writeReg_agenda _ v (regOf n)
    all_goals rfl
  | engine =>
    simp only [takeTurn, engineTurn] at h
    split at h
    · exact (engineStep_next_frame h).2.agenda
    · cases h
      rfl
  | reset =>
    cases h
    rfl

theorem takeTurn_not_refused (e : Event) (s : State) (r : Refusal) : takeTurn e s ≠ .refused r := by
  cases e with
  | host a => exact hostAccess_not_refused a s r
  | engine =>
    simp only [takeTurn, engineTurn]
    split
    · exact engineStep_not_refused s r
    · nofun
  | reset => nofun

/-- The step of an agenda entry, whatever its outcome, leads to a state with the rest of the agenda. -/
theorem step_of_agenda_cons {s : State} {e : Event} {rest : List Event} (hf : s.faulted = none)
    (hwf : s.params.tables.wf = true) (ha : s.agenda = e :: rest) : ∃ t, step s = .next t ∧ t.agenda = rest := by
  have hstep : step s = recordFault (s.withAgenda rest) (takeTurn e (s.withAgenda rest)) := by
    simp only [step_of_good hf hwf, advance, ha]
  cases ho : takeTurn e (s.withAgenda rest) with
  | next t => exact ⟨t, hstep.trans ((recordFault_outcome _ _).1 t ho), takeTurn_next_agenda ho⟩
  | fault f => exact ⟨_, hstep.trans ((recordFault_outcome _ _).2 f ho), rfl⟩
  | refused r => exact absurd ho (takeTurn_not_refused e _ r)

/-- With the agenda used up, the step leads to a final state, or records a fault. -/
theorem step_of_agenda_nil {s : State} (hf : s.faulted = none) (hwf : s.params.tables.wf = true) (ha : s.agenda = []) :
    ∃ t, step s = .next t ∧ (t.final ∨ ∃ f, t.faulted = some f) := by
  cases hb : s.busy with
  | false => exact ⟨s, (engineIdleWhileNotBusy s hf hwf hb).2 ha, .inl ⟨ha, hb, hf, hwf⟩⟩
  | true =>
    have hstep : step s = recordFault s (engineStep s) := by
      rw [step_of_good hf hwf, advance_nil ha, engineTurn_busy hb]
    cases ho : engineStep s with
    | next t =>
      rw [ho] at hstep
      obtain ⟨hbusy, hrun⟩ := engineStep_next_frame ho
      have hparams : t.params = s.params := parametersNeverChange.1 s t hstep
      exact ⟨t, hstep, .inl ⟨hrun.agenda.trans ha, hbusy, hrun.faulted.trans hf, hparams ▸ hwf⟩⟩
    | fault f => exact ⟨_, hstep.trans ((recordFault_outcome _ _).2 f ho), .inr ⟨f, rfl⟩⟩
    | refused r => exact absurd ho (engineStep_not_refused s r)

/-- Within k steps the run has come to a final state, or stopped with a fault. -/
def RunEnds (k : Nat) (s : State) : Prop :=
  (∃ t : State, core.run k s = .next t ∧ t.final) ∨ (∃ f : Fault, core.run k s = .fault f)

theorem run_succ_of_step {s t : State} (h : step s = .next t) (k : Nat) : core.run (k + 1) s = core.run k t := by
  have hcore : core.step s = .next t := h
  simp only [Host.Core.run, hcore]

theorem RunEnds.of_step {s t : State} (h : step s = .next t) {k : Nat} (ht : RunEnds k t) : RunEnds (k + 1) s := by
  unfold RunEnds
  rwa [run_succ_of_step h]

/-- A recorded fault stops the run at its next step. -/
theorem RunEnds.of_faulted {s : State} {f : Fault} (h : s.faulted = some f) (k : Nat) : RunEnds (k + 1) s := by
  have hcore : core.step s = .fault f := step_of_faulted h
  exact .inr ⟨f, by simp only [Host.Core.run, hcore]⟩

/-- A final state is left as it is, so one step of it is as good as none. -/
theorem RunEnds.of_final {s : State} (h : s.final) : RunEnds 1 s := by
  obtain ⟨ha, hb, hf, hwf⟩ := h
  exact .of_step ((engineIdleWhileNotBusy s hf hwf hb).2 ha) (.inl ⟨s, rfl, ha, hb, hf, hwf⟩)

/-- The bound of R311, for faulted states too, so that a fault recorded on the way needs no case of its own: one step for
each agenda entry, one for the pending command, and one to stop at a fault that command records. -/
theorem runEnds_of_agenda {agenda : List Event} {s : State} (ha : s.agenda = agenda) (hwf : s.params.tables.wf = true) :
    RunEnds (agenda.length + 2) s := by
  induction agenda generalizing s with
  | nil =>
    cases hf : s.faulted with
    | some f => exact .of_faulted hf 1
    | none =>
      obtain ⟨t, hstep, hfinal | ⟨f, hfault⟩⟩ := step_of_agenda_nil hf hwf ha
      · exact .of_step hstep (.of_final hfinal)
      · exact .of_step hstep (.of_faulted hfault 0)
  | cons e rest ih =>
    cases hf : s.faulted with
    | some f => exact .of_faulted hf _
    | none =>
      obtain ⟨t, hstep, hrest⟩ := step_of_agenda_cons hf hwf ha
      have hparams : t.params = s.params := parametersNeverChange.1 s t hstep
      exact .of_step hstep (ih hrest (hparams ▸ hwf))

/-- Settles O12, by induction on the agenda. -/
theorem everyRunEnds : Obligations.EveryRunEnds := fun _ _ hwf => runEnds_of_agenda rfl hwf

end Sys2Proof.Machine
end

section
/-! Proofs of the statements of 60_exceptions.md: the error code of every completion with its priority (R347), errors that write
STATUS alone (R343, R344, R348, R349), and the recorded fault, which nothing clears (R351). -/

namespace Sys2Proof.Machine

/-! ### The length errors (R343, R344) -/

/-- The range check of CTS_ENC (R343). -/
theorem exec_ctsEnc_of_lenRange {s : State} (h : s.params.maxLen.val < s.len.toNat) :
    exec .ctsEnc s = .next (s.complete .lenRange) := by
  simp only [exec, execCtsEnc, h, if_true, raiseError_eq]

/-- The range check of CTS_DEC (R343), which comes before the check of the pair (R347). -/
theorem exec_ctsDec_of_lenRange {s : State} (h : s.params.maxLen.val < s.len.toNat ∨ s.params.maxLen.val < s.plen.toNat) :
    exec .ctsDec s = .next (s.complete .lenRange) := by
  simp only [exec, execCtsDec, h, if_true, raiseError_eq]

/-- The pair check of CTS_DEC, once the range check has passed (R344). -/
theorem exec_ctsDec_of_decLength {s : State} (hlen : s.len.toNat ≤ s.params.maxLen.val)
    (hplen : s.plen.toNat ≤ s.params.maxLen.val) (hpair : ¬ AcceptedPair s.len.toNat s.plen.toNat) :
    exec .ctsDec s = .next (s.complete .decLength) := by
  have hacc : decAccepts s.len.toNat s.plen.toNat = false := by rwa [← decAccepts_iff, Bool.not_eq_true] at hpair
  simp only [exec, execCtsDec, Nat.not_lt.mpr hlen, Nat.not_lt.mpr hplen, or_self, if_false, hacc, if_true, raiseError_eq]

/-- Settles O35: each command's range check ends it with the bare completion. -/
theorem lenRangeWritesOnlyStatus : Obligations.LenRangeWritesOnlyStatus := fun s =>
  ⟨fun h => ⟨_, exec_ctsEnc_of_lenRange h, s.onlyStatusWritten_complete .lenRange⟩,
    fun h => ⟨_, exec_ctsDec_of_lenRange h, s.onlyStatusWritten_complete .lenRange⟩⟩

/-- Settles O36: the pair check ends CTS_DEC with the bare completion. -/
theorem decLengthWritesOnlyStatus : Obligations.DecLengthWritesOnlyStatus := fun s hlen hplen hpair =>
  ⟨_, exec_ctsDec_of_decLength hlen hplen hpair, s.onlyStatusWritten_complete .decLength⟩

/-! ### The error code of every completion (R341, R347) -/

/-- Every completion clears BUSY and sets DONE (43_host_interface.md R304). -/
theorem Completion.completedWith {s t : State} (h : Completion s t) : CompletedWith t t.err := by
  cases h <;> exact ⟨rfl, rfl, rfl⟩

/-- The engine step on a legal word is its command (43_host_interface.md R304). -/
theorem engineStep_of_decode {s : State} {i : Instr} (hd : decode s.cmd = .ok i) : engineStep s = exec i s := by
  rw [engineStep, hd]

/-- The code CTS_ENC completes with: that of its one check. -/
theorem exec_ctsEnc_err {s t : State} (h : exec .ctsEnc s = .next t) :
    (s.params.maxLen.val < s.len.toNat → t.err = 2#4) ∧ (s.len.toNat ≤ s.params.maxLen.val → t.err = 0#4) := by
  rcases exec_ctsEnc_cases s with ⟨hrange, hx⟩ | ⟨-, -, hx⟩ | ⟨_, hlen, -, hx⟩ <;> rw [hx] at h <;> cases h
  · exact ⟨fun _ => rfl, fun hlen => absurd hrange (Nat.not_lt.mpr hlen)⟩
  · exact ⟨fun hrange => absurd hrange (Nat.not_lt.mpr hlen), fun _ => rfl⟩

/-- The code CTS_DEC completes with: that of the first check it fails, the range check before the pair check. -/
theorem exec_ctsDec_err {s t : State} (h : exec .ctsDec s = .next t) :
    (s.params.maxLen.val < s.len.toNat ∨ s.params.maxLen.val < s.plen.toNat → t.err = 2#4) ∧
    (s.len.toNat ≤ s.params.maxLen.val → s.plen.toNat ≤ s.params.maxLen.val →
      (¬ AcceptedPair s.len.toNat s.plen.toNat → t.err = 3#4) ∧
      (AcceptedPair s.len.toNat s.plen.toNat → t.err = 0#4)) := by
  rw [← decAccepts_iff]
  rcases exec_ctsDec_cases s with ⟨hrange, hx⟩ | ⟨hlen, hplen, ⟨hpair, hx⟩ | ⟨-, -, hx⟩ | ⟨_, hpair, -, hx⟩⟩ <;>
    rw [hx] at h <;> cases h
  · exact ⟨fun _ => rfl, fun hlen hplen => by omega⟩
  · exact ⟨fun hrange => by omega, fun _ _ => ⟨fun _ => rfl, fun hacc => nomatch hpair.symm.trans hacc⟩⟩
  · exact ⟨fun hrange => by omega, fun _ _ => ⟨absurd hpair, fun _ => rfl⟩⟩

/-- Settles O38, by what the latched word decodes to. -/
theorem errorCodeAndPriority : Obligations.ErrorCodeAndPriority := by
  intro s t h
  refine ⟨(engineStep_next h).completedWith, fun e he => ?_, ?_, fun hd => ?_, fun hd => ?_⟩
  · rw [engineStep_of_decode_error ⟨e, he⟩] at h
    cases h
    rfl
  · rintro (hd | ⟨_, hd⟩ | hd) <;> rw [engineStep_of_decode hd] at h <;> cases h <;> rfl
  · rw [engineStep_of_decode hd] at h
    exact exec_ctsEnc_err h
  · rw [engineStep_of_decode hd] at h
    exact exec_ctsDec_err h

/-! ### Errors write STATUS alone (R348, R349) -/

/-- Settles O39: a completion that writes a result has ERR = 0, and any other writes STATUS alone. -/
theorem errorsArePrecise : Obligations.ErrorsArePrecise := by
  intro s t h herr
  cases engineStep_next h with
  | statusOnly code => exact s.onlyStatusWritten_complete code
  | derive => exact absurd rfl herr
  | xform => exact absurd rfl herr
  | emit => exact absurd rfl herr

/-! ### The recorded fault (R351) -/

theorem not_final_of_faulted {s : State} {f : Fault} (h : s.faulted = some f) : ¬ s.final :=
  fun ⟨_, _, hnone, _⟩ => nomatch h.symm.trans hnone

/-- A table set that fails R158 takes no step. -/
theorem step_of_bad_tables {s : State} (hf : s.faulted = none) (hwf : s.params.tables.wf = false) :
    step s = .fault .badTables := by
  simp [step, hf, hwf]

theorem not_final_of_bad_tables {s : State} (h : s.params.tables.wf = false) : ¬ s.final :=
  fun ⟨_, _, _, hwf⟩ => nomatch h.symm.trans hwf

/-- Settles O8: the recorded fault is answered first, then the bad table set, and the reset state records the latter. -/
theorem faultedOrBadTablesNeverStep : Obligations.FaultedOrBadTablesNeverStep :=
  ⟨fun _ _ h => ⟨step_of_faulted h, not_final_of_faulted h⟩,
    fun _ hwf => ⟨fun hf => step_of_bad_tables hf hwf, not_final_of_bad_tables hwf⟩,
    fun _ hwf => ⟨configFault_of_bad hwf, step_of_faulted (configFault_of_bad hwf)⟩,
    fun _ hwf => configFault_of_wf hwf⟩

end Sys2Proof.Machine
end

section
/-! Proofs of the statements of 70_reset_and_hazards.md: the reset state (R381, R382) and the reset input (R380). -/

namespace Sys2Proof.Machine

/-! ### The reset state (R381, R382) -/

/-- Settles O10: the invariant of the reset state, proved with the step's. -/
theorem resetMeetsTheInvariant : Obligations.ResetMeetsTheInvariant :=
  ⟨State.resetFor_inv, State.resetFor_inv defaultParams⟩

/-- STATUS reads 0 at reset: BUSY, DONE and ERR are 0 (R381). -/
@[simp] theorem statusWord_resetFor (p : Params) : statusWord (State.resetFor p) = 0x00000000#32 := by
  simp [statusWord]

/-- Settles O18, row by row of R381, then the bytes of the two buffers (R382) and the default of IV_RESET. -/
theorem resetValues : Obligations.ResetValues := fun p =>
  ⟨State.resetFor_cmd p, statusWord_resetFor p, State.resetFor_key p, State.resetFor_iv p, State.resetFor_blkIn p,
    State.resetFor_blkOut p, State.resetFor_len p, State.resetFor_plen p, State.resetFor_outLen p,
    fun i => by simp, Memory.read_nil, Memory.read_nil, rfl⟩

/-! ### The reset input (R380) -/

/-- The reset input on a state with a good table set: STATUS, the registers and the buffers of the reset state, and no
recorded fault. -/
theorem State.assertReset_restores {s : State} (hwf : s.params.tables.wf = true) :
    StatusKept (State.resetFor s.params) s.assertReset ∧ OperandsKept (State.resetFor s.params) s.assertReset ∧
      ResultsKept (State.resetFor s.params) s.assertReset ∧ s.assertReset.faulted = none :=
  ⟨⟨rfl, rfl, rfl⟩, ⟨rfl, rfl, rfl, rfl, rfl, rfl, rfl, fun _ => rfl⟩, ⟨rfl, rfl, rfl, fun _ => rfl⟩,
    configFault_of_wf hwf⟩

/-- Settles O19: the step is the reset input, made with the rest of the agenda. -/
theorem resetInputRestoresResetState : Obligations.ResetInputRestoresResetState := by
  intro s rest hf hwf ha
  have hstep : step s = .next (s.withAgenda rest).assertReset := (step_of_good hf hwf).trans (advance_reset ha)
  obtain ⟨hstatus, hoperands, hresults, hfault⟩ := State.assertReset_restores (s := s.withAgenda rest) hwf
  exact ⟨_, hstep, hstatus, hoperands, hresults, hfault, rfl⟩

end Sys2Proof.Machine
end
